-- ==== Sys2Proof/Word.lean ====
section
/-! DEFINITION. The plain types of the WT450 transmitter: line levels, segments, phases, steps of the frame sequence and the
input ports (spec/00_scope.md R8, R9; spec/10_state.md R15, R16; spec/42_control_interface.md R110). -/

namespace Sys2Proof

/-- A level of the line: `LOW = 0`, `HIGH = 1` (R8). -/
inductive Level where
  | low
  | high
  deriving DecidableEq, Repr

/-- `not L`, the other level (R8). -/
def Level.not : Level → Level
  | .low => .high
  | .high => .low

/-- The one-bit value of a level: `LOW = 0`, `HIGH = 1` (R8), the value of output port `tx` (R110). -/
def Level.bit : Level → BitVec 1
  | .low => 0#1
  | .high => 1#1

/-- A segment `(L, D)`: a level and a duration in microseconds (R9). -/
structure Segment where
  level : Level
  dur : Nat
  deriving DecidableEq, Repr

/-- `phase` (R16). -/
inductive Phase where
  | idle
  | run
  deriving DecidableEq, Repr

/-- The nine entries of the frame sequence (spec/30_encoding.md R47): a nine-valued type, so that the codes `1001` to `1111`
cannot be written down (U15). -/
inductive Step where
  | start
  | emitPre
  | emitHouse
  | emitChan
  | emitSep
  | emitHum
  | emitTemp
  | emitPar
  | endFrame
  deriving DecidableEq, Repr

/-- The input ports sampled at one rising edge of `clk` (R110). -/
structure Ports where
  rst : Bool
  start : Bool
  house : BitVec 8
  channel : BitVec 8
  humidity : BitVec 8
  tempQ7 : BitVec 16
  deriving DecidableEq, Repr

/-- Every input port at 0: nothing is asked of the block. -/
def Ports.quiet : Ports :=
  { rst := false, start := false, house := 0, channel := 0, humidity := 0, tempQ7 := 0 }

end Sys2Proof
end

