-- ==== Sys2Proof/Config.lean ====
section
/-! DEFINITION. The configuration parameters of the block (spec/00_scope.md R5). No free value: "Nothing in the block is a draw,
an election or a free order" (spec/41_pulse_transmitter.md R106). -/

namespace Sys2Proof

/-- The static parameters of R5, fixed for the life of a run, and the switch of U1 and R131. -/
structure Config where
  /-- `T_TRIGGER`: low hold of Start and of End, in microseconds. -/
  tTrigger : Nat
  /-- `T_SHORT`: each of the two pulses of a 1 bit, in microseconds. -/
  tShort : Nat
  /-- `T_LONG`: the single pulse of a 0 bit, in microseconds. -/
  tLong : Nat
  /-- `T_HALF`: the End half-pulse, in microseconds. -/
  tHalf : Nat
  /-- `REPEATS`: frames sent per TRANSMIT. -/
  repeats : Nat
  /-- `CYCLES_PER_US`: clock cycles per microsecond, left OPEN by the spec (D1). -/
  cyclesPerUs : Nat
  /-- The switch of U1 and R131: off, operands wrap silently (the block as specified); on, an operand outside its declared
  range is refused at acceptance. -/
  validate : Bool
  deriving DecidableEq, Repr

/-- The reference values of R5. `cyclesPerUs` is OPEN in the spec; 1 is a DESIGN CHOICE (entry 2, unsafe where a claim rests on
it). `validate` is off (D5). -/
def Config.reference : Config :=
  { tTrigger := 15000, tShort := 1000, tLong := 2000, tHalf := 500, repeats := 2, cyclesPerUs := 1, validate := false }

end Sys2Proof
end

