-- ==== Sys2Proof/Syntax.lean ====
section
/-! DEFINITION. The nineteen operations of spec/opcode_table.json, and the code words they are written as. The block decodes no
instruction words (spec/30_encoding.md, head): its encodings are of six formats, so a code word here is a format with the bits of
that format. -/

namespace Sys2Proof

/-- One constructor per row of spec/opcode_table.json. Operands are at port width (R42, R110). -/
inductive Instr where
  /-- TRANSMIT house, channel, humidity, temperature (R113). -/
  | transmit (house channel humidity : BitVec 8) (tempQ7 : BitVec 16)
  /-- FRAME: the whole frame as a value (R68). -/
  | frame (house channel humidity : BitVec 8) (tempQ7 : BitVec 16)
  /-- FIELD_HOUSE (R60). -/
  | fieldHouse (house : BitVec 8)
  /-- ENC_CHAN (R61). -/
  | encChan (channel : BitVec 8)
  /-- FIELD_HUM (R63). -/
  | fieldHum (humidity : BitVec 8)
  /-- ENC_TEMP (R62). -/
  | encTemp (tempQ7 : BitVec 16)
  /-- PARITY (R67): its operands are the latches. -/
  | parity
  /-- SYM0 (R81). -/
  | sym0
  /-- SYM1 (R82). -/
  | sym1
  /-- START, step code 0 (R80). -/
  | start
  /-- EMIT_PRE, step code 1 (R84). -/
  | emitPre
  /-- EMIT_HOUSE, step code 2 (R85). -/
  | emitHouse
  /-- EMIT_CHAN, step code 3 (R86). -/
  | emitChan
  /-- EMIT_SEP, step code 4 (R87). -/
  | emitSep
  /-- EMIT_HUM, step code 5 (R88). -/
  | emitHum
  /-- EMIT_TEMP, step code 6 (R89). -/
  | emitTemp
  /-- EMIT_PAR, step code 7 (R91). -/
  | emitPar
  /-- END, step code 8 (R96). -/
  | endFrame
  /-- REPEAT: the frame sequence `REPEATS` times (R97, R100). -/
  | repeatFrames
  deriving DecidableEq, Repr

/-- The lettered field of a FRAME36_FIELD row: which frame bits the operation produces (spec/30_encoding.md R40). -/
inductive FrameField where
  | house
  | chan
  | hum
  | temp
  | par
  deriving DecidableEq, Repr

/-- A code word: one of the six formats of spec/30_encoding.md with the bits of that format. The bits alone do not name an
operation (`1` is TRANSMIT as a strobe and SYM1 as a frame bit), so the format is part of the word. -/
inductive CodeWord where
  /-- COMMAND_STROBE: the input ports at one edge (R42). -/
  | strobe (ports : Ports)
  /-- FRAME36: the 36 bits `FRAME[35:0]` (R40). -/
  | frame36 (bits : BitVec 36)
  /-- FRAME36_FIELD: which field is lettered, and the 36 bits of which only the lettered ones count (the others are `x`). -/
  | field36 (field : FrameField) (bits : BitVec 36)
  /-- LINE_SYMBOL: one frame bit (R44). -/
  | symbol (bit : BitVec 1)
  /-- STEP: a 4-bit step code (R47). -/
  | stepCode (code : BitVec 4)
  /-- SEQUENCE: the nine step codes side by side (R100). -/
  | sequence (bits : BitVec 36)
  deriving DecidableEq, Repr

/-- Why a code word is no operation of the table. -/
inductive DecodeError where
  /-- A strobe at an edge with `rst = 1`: reset wins over everything (R133). -/
  | resetAsserted
  /-- A strobe with `start = 0`: no command (R113). -/
  | noStart
  /-- A frame whose bits 35:32 are not `1100` (R40, R50). -/
  | badPreamble
  /-- A frame whose bits 25:23 are not `110` (R40, R50). -/
  | badSeparator
  /-- A frame whose 36 bits do not XOR to 0 (R50). -/
  | badParity
  /-- A step code `1001` to `1111` (R47, U15). -/
  | reservedStepCode (code : BitVec 4)
  /-- A sequence other than the fixed one: the frame sequence is hardwired (spec/20_memory.md R37). -/
  | otherSequence
  deriving DecidableEq, Repr

end Sys2Proof
end

