-- ==== Sys2Proof/WellFormed.lean ====
section
/-! DEFINITION. Which instructions are well formed: no operand is ILLEGAL (spec/30_encoding.md R48), and TRANSMIT is well formed
with every operand. An encoder operation is written in the table by the frame bits it produces, and those bits name an operand only
inside the no-wrap domain of spec/40_frame_encoder.md R71; outside it the operation runs all the same and produces the bits of the
value it aliases. DESIGN CHOICE, entry 16 (safe). -/

namespace Sys2Proof

/-- `0 <= house <= 15` (R71). -/
def houseNoWrap (house : BitVec 8) : Bool := decide (house.toNat ≤ 15)

/-- `1 <= channel <= 4` (R71). -/
def channelNoWrap (channel : BitVec 8) : Bool := decide (1 ≤ channel.toNat ∧ channel.toNat ≤ 4)

/-- `0 <= humidity <= 127` (R71). -/
def humidityNoWrap (humidity : BitVec 8) : Bool := decide (humidity.toNat ≤ 127)

/-- `-6400 <= q <= 26367` (R71). -/
def tempNoWrap (tempQ7 : BitVec 16) : Bool := decide (-6400 ≤ tempQ7.toInt ∧ tempQ7.toInt ≤ 26367)

/-- The instruction is the one its code word names. -/
def Instr.wellFormed : Instr → Bool
  | .transmit _ _ _ _ => true
  | .frame h c u t => houseNoWrap h && channelNoWrap c && humidityNoWrap u && tempNoWrap t
  | .fieldHouse h => houseNoWrap h
  | .encChan c => channelNoWrap c
  | .fieldHum u => humidityNoWrap u
  | .encTemp t => tempNoWrap t
  | .parity => true
  | .sym0 => true
  | .sym1 => true
  | .start => true
  | .emitPre => true
  | .emitHouse => true
  | .emitChan => true
  | .emitSep => true
  | .emitHum => true
  | .emitTemp => true
  | .emitPar => true
  | .endFrame => true
  | .repeatFrames => true

end Sys2Proof
end

