-- ==== Sys2Proof/Machine/Operands.lean ====
section
/-! DEFINITION. Every operand form of the block, as pure functions: the configuration's legality, the field encodings of
spec/40_frame_encoder.md at the port layer and at the abstract layer, the frame as a value, bit lists in transmission order, the
step table of spec/30_encoding.md R47. -/

namespace Sys2Proof.Machine

/-! ### Bits -/

/-- The bits of `v` below index `n`, bit `n-1` first: "for i = n-1 downto 0: v[i]" (R83). -/
def bitsBelow {w : Nat} (v : BitVec w) : Nat → List Bool
  | 0 => []
  | n + 1 => v.getLsbD n :: bitsBelow v n

/-- The bits of `v` in transmission order, most significant first (R32). -/
def bitsMsb {w : Nat} (v : BitVec w) : List Bool := bitsBelow v w

/-- `XOR(list)`: the exclusive-or of every bit of a list, 0 for the empty list (R8). -/
def xorBits : List Bool → Bool
  | [] => false
  | b :: bs => b ^^ xorBits bs

/-! ### Field encodings, port layer -/

/-- FIELD_HOUSE: `house[3:0]` (R60). -/
def houseField (house : BitVec 8) : BitVec 4 := house.setWidth 4

/-- ENC_CHAN: `(uval(channel) - 1) mod 4` (R61). -/
def chanField (channel : BitVec 8) : BitVec 2 := BitVec.ofInt 2 ((channel.toNat : Int) - 1)

/-- FIELD_HUM: `humidity[6:0]` (R63). -/
def humField (humidity : BitVec 8) : BitVec 7 := humidity.setWidth 7

/-- ENC_TEMP: `(sval(temp_q7) + 6400) mod 32768` (R62). -/
def tempField (tempQ7 : BitVec 16) : BitVec 15 := BitVec.ofInt 15 (tempQ7.toInt + 6400)

/-! ### The frame as a value -/

/-- The 35 bits `B = 1100 ++ house ++ chan ++ 110 ++ hum ++ temp` (R67, R68). -/
def dataBits (house : BitVec 4) (chan : BitVec 2) (hum : BitVec 7) (temp : BitVec 15) : BitVec 35 :=
  0b1100#4 ++ house ++ chan ++ 0b110#3 ++ hum ++ temp

/-- `PAR = XOR(B[34:0])`: even parity (R67). -/
def parityOf (b : BitVec 35) : Bool := xorBits (bitsMsb b)

/-- `FRAME = B ++ XOR(B)` of four field values (R68). -/
def frameOfFields (house : BitVec 4) (chan : BitVec 2) (hum : BitVec 7) (temp : BitVec 15) : BitVec 36 :=
  dataBits house chan hum temp ++ BitVec.ofBool (parityOf (dataBits house chan hum temp))

/-- `FRAME` of the operands at the ports (R66, R68). -/
def frameOfPorts (house channel humidity : BitVec 8) (tempQ7 : BitVec 16) : BitVec 36 :=
  frameOfFields (houseField house) (chanField channel) (humField humidity) (tempField tempQ7)

/-- Put a field's bits into the frame at bit `lo`, leaving the other bits (R40). -/
def putField {w : Nat} (frame : BitVec 36) (lo : Nat) (v : BitVec w) : BitVec 36 :=
  (frame &&& ~~~((BitVec.allOnes w).setWidth 36 <<< lo)) ||| (v.setWidth 36 <<< lo)

/-- The seven constant bits with every other bit 0: the match of the FRAME row (R40, R49). -/
def constantFrame : BitVec 36 := 0xC03000000#36

/-- `XOR(FRAME[35:0]) = 0` (R50, R69). -/
def evenParity (frame : BitVec 36) : Bool := !xorBits (bitsMsb frame)

/-! ### The abstract layer and the host's conversion -/

/-- The caller's temperature: a real (an exact rational, D24), or something that is no finite real (R65, D7). -/
inductive Temperature where
  | celsius (t : Rat)
  | notFinite
  deriving DecidableEq, Repr

/-- `q = floor(temperature * 128)`, toward minus infinity (R62, R65, D6). -/
def quantise (t : Rat) : Int := (t * 128).floor

/-- `house mod 16` over the integers (R60). -/
def absHouse (house : Int) : Int := house % 16

/-- `(channel - 1) mod 4` over the integers (R61). -/
def absChan (channel : Int) : Int := (channel - 1) % 4

/-- `humidity mod 128` over the integers (R63). -/
def absHum (humidity : Int) : Int := humidity % 128

/-- `(floor(temperature * 128) + 6400) mod 32768` (R62). -/
def absTemp (t : Rat) : Int := (quantise t + 6400) % 32768

/-- `FRAME` of the caller's operands (R68). -/
def frameOfCall (house channel humidity : Int) (t : Rat) : BitVec 36 :=
  frameOfFields (BitVec.ofInt 4 (absHouse house)) (BitVec.ofInt 2 (absChan channel)) (BitVec.ofInt 7 (absHum humidity))
    (BitVec.ofInt 15 (absTemp t))

/-- What the host drives to issue `TRANSMIT house, channel, humidity, temperature`: each operand reduced to its port's width,
`start = 1` (R42, R112). -/
def portsOfCall (house channel humidity : Int) (t : Rat) : Ports :=
  { rst := false, start := true, house := BitVec.ofInt 8 house, channel := BitVec.ofInt 8 channel,
    humidity := BitVec.ofInt 8 humidity, tempQ7 := BitVec.ofInt 16 (quantise t) }

/-! ### Ranges and the configuration -/

/-- The four durations are at least 1 microsecond (R5, D14). -/
def durationsLegal (c : Config) : Bool :=
  decide (1 ≤ c.tTrigger ∧ 1 ≤ c.tShort ∧ 1 ≤ c.tLong ∧ 1 ≤ c.tHalf)

/-- The durations and `CYCLES_PER_US` are at least 1: what R5 asks of every run, clocked or not. Only for `REPEATS` does R5 let 0 stand
outside the clocked block. -/
def timingLegal (c : Config) : Bool :=
  durationsLegal c && decide (1 ≤ c.cyclesPerUs)

/-- A configuration the clocked block accepts (R5, R137): durations, `REPEATS` and `CYCLES_PER_US` at least 1. -/
def configLegal (c : Config) : Bool :=
  timingLegal c && decide (1 ≤ c.repeats)

/-- `T_max`, the largest of the four durations (R18). -/
def tMax (c : Config) : Nat := max (max c.tTrigger c.tShort) (max c.tLong c.tHalf)

/-- The declared ranges as the ports can show them: house 1 to 15, channel 1 to 4, humidity 0 to 127, temperature 0 to 205, that is
`0 <= q <= 26240` (R71, R131). -/
def operandsInRange (house channel humidity : BitVec 8) (tempQ7 : BitVec 16) : Bool :=
  decide (1 ≤ house.toNat ∧ house.toNat ≤ 15) && decide (1 ≤ channel.toNat ∧ channel.toNat ≤ 4)
    && decide (humidity.toNat ≤ 127) && decide (0 ≤ tempQ7.toInt ∧ tempQ7.toInt ≤ 26240)

/-- Whether the acceptance admits the operands: always, unless the switch of U1 is on (R48, R131). -/
def admits (c : Config) (house channel humidity : BitVec 8) (tempQ7 : BitVec 16) : Bool :=
  !c.validate || operandsInRange house channel humidity tempQ7

/-! ### The step table (R47) -/

/-- The 4-bit step code (R47). -/
def stepCodeOf : Step → BitVec 4
  | .start => 0#4
  | .emitPre => 1#4
  | .emitHouse => 2#4
  | .emitChan => 3#4
  | .emitSep => 4#4
  | .emitHum => 5#4
  | .emitTemp => 6#4
  | .emitPar => 7#4
  | .endFrame => 8#4

/-- `width(step)` (R47, R99). -/
def stepWidth : Step → Nat
  | .start => 0
  | .emitPre => 4
  | .emitHouse => 4
  | .emitChan => 2
  | .emitSep => 3
  | .emitHum => 7
  | .emitTemp => 15
  | .emitPar => 1
  | .endFrame => 0

/-- "the next step code" of `Advance` (R99); END goes back to START (R15). -/
def stepNext : Step → Step
  | .start => .emitPre
  | .emitPre => .emitHouse
  | .emitHouse => .emitChan
  | .emitChan => .emitSep
  | .emitSep => .emitHum
  | .emitHum => .emitTemp
  | .emitTemp => .emitPar
  | .emitPar => .endFrame
  | .endFrame => .start

/-- The operation a step of the frame sequence stands for (R47). -/
def stepInstr : Step → Instr
  | .start => .start
  | .emitPre => .emitPre
  | .emitHouse => .emitHouse
  | .emitChan => .emitChan
  | .emitSep => .emitSep
  | .emitHum => .emitHum
  | .emitTemp => .emitTemp
  | .emitPar => .emitPar
  | .endFrame => .endFrame

/-- The nine step codes 0 to 8 side by side in execution order (the REPEAT row; R47, R97). -/
def frameSequenceBits : BitVec 36 := 0b000000010010001101000101011001111000#36

end Sys2Proof.Machine
end

