-- ==== Sys2Proof/Decode.lean ====
section
/-! DEFINITION. The decoder (code word to operation, total, rejecting by name) and after it the encoder, both from the tables of
spec/30_encoding.md and spec/opcode_table.json. The block itself decodes nothing; the strobe is the one word it looks at. -/

namespace Sys2Proof

open Sys2Proof.Machine

/-- The operand a house field names: itself (R50, R60). -/
def houseOfField (f : BitVec 4) : BitVec 8 := f.setWidth 8

/-- The operand a channel field names: `uval + 1` (R50, R61). -/
def channelOfField (f : BitVec 2) : BitVec 8 := f.setWidth 8 + 1#8

/-- The operand a humidity field names: itself (R50, R63). -/
def humidityOfField (f : BitVec 7) : BitVec 8 := f.setWidth 8

/-- The operand a temperature field names: `uval - 6400` (R50, R62, R70). -/
def tempOfField (f : BitVec 15) : BitVec 16 := f.setWidth 16 - 6400#16

/-- `FRAME[31:28]` (R40). -/
def frameHouse (w : BitVec 36) : BitVec 4 := w.extractLsb' 28 4
/-- `FRAME[27:26]` (R40). -/
def frameChan (w : BitVec 36) : BitVec 2 := w.extractLsb' 26 2
/-- `FRAME[22:16]` (R40). -/
def frameHum (w : BitVec 36) : BitVec 7 := w.extractLsb' 16 7
/-- `FRAME[15:1]` (R40). -/
def frameTemp (w : BitVec 36) : BitVec 15 := w.extractLsb' 1 15

/-- COMMAND_STROBE: `start = 1` sampled with `rst = 0` (R42, R113). -/
def decodeStrobe (p : Ports) : Except DecodeError Instr :=
  if p.rst then .error .resetAsserted
  else if p.start then .ok (.transmit p.house p.channel p.humidity p.tempQ7)
  else .error .noStart

/-- FRAME36: constants, parity, then the fields (R40, R50). -/
def decodeFrame (w : BitVec 36) : Except DecodeError Instr :=
  if w.extractLsb' 32 4 ≠ 0b1100#4 then .error .badPreamble
  else if w.extractLsb' 23 3 ≠ 0b110#3 then .error .badSeparator
  else if !evenParity w then .error .badParity
  else .ok (.frame (houseOfField (frameHouse w)) (channelOfField (frameChan w)) (humidityOfField (frameHum w))
    (tempOfField (frameTemp w)))

/-- FRAME36_FIELD: only the lettered bits count (R40; the FIELD rows of the table). -/
def decodeField (f : FrameField) (w : BitVec 36) : Instr :=
  match f with
  | .house => .fieldHouse (houseOfField (frameHouse w))
  | .chan => .encChan (channelOfField (frameChan w))
  | .hum => .fieldHum (humidityOfField (frameHum w))
  | .temp => .encTemp (tempOfField (frameTemp w))
  | .par => .parity

/-- LINE_SYMBOL: "one long pulse = 0, two short pulses = 1" (R44). -/
def decodeSymbol (b : BitVec 1) : Instr := if b = 0#1 then .sym0 else .sym1

/-- STEP: the nine codes of R47, the others reserved (U15). -/
def decodeStep (code : BitVec 4) : Except DecodeError Instr :=
  match code.toNat with
  | 0 => .ok .start
  | 1 => .ok .emitPre
  | 2 => .ok .emitHouse
  | 3 => .ok .emitChan
  | 4 => .ok .emitSep
  | 5 => .ok .emitHum
  | 6 => .ok .emitTemp
  | 7 => .ok .emitPar
  | 8 => .ok .endFrame
  | _ => .error (.reservedStepCode code)

/-- SEQUENCE: the one fixed sequence (R37, R97, R100). -/
def decodeSequence (w : BitVec 36) : Except DecodeError Instr :=
  if w = frameSequenceBits then .ok .repeatFrames else .error .otherSequence

/-- The decoder. -/
def decode : CodeWord → Except DecodeError Instr
  | .strobe p => decodeStrobe p
  | .frame36 w => decodeFrame w
  | .field36 f w => .ok (decodeField f w)
  | .symbol b => .ok (decodeSymbol b)
  | .stepCode c => decodeStep c
  | .sequence w => decodeSequence w

/-! ### The encoder -/

/-- The code word of an operation, from the same tables. PARITY's own bit is a result and no operand: it is written 0. -/
def encode : Instr → CodeWord
  | .transmit h c u t => .strobe { rst := false, start := true, house := h, channel := c, humidity := u, tempQ7 := t }
  | .frame h c u t => .frame36 (frameOfPorts h c u t)
  | .fieldHouse h => .field36 .house ((houseField h).setWidth 36 <<< 28)
  | .encChan c => .field36 .chan ((chanField c).setWidth 36 <<< 26)
  | .fieldHum u => .field36 .hum ((humField u).setWidth 36 <<< 16)
  | .encTemp t => .field36 .temp ((tempField t).setWidth 36 <<< 1)
  | .parity => .field36 .par 0#36
  | .sym0 => .symbol 0#1
  | .sym1 => .symbol 1#1
  | .start => .stepCode 0#4
  | .emitPre => .stepCode 1#4
  | .emitHouse => .stepCode 2#4
  | .emitChan => .stepCode 3#4
  | .emitSep => .stepCode 4#4
  | .emitHum => .stepCode 5#4
  | .emitTemp => .stepCode 6#4
  | .emitPar => .stepCode 7#4
  | .endFrame => .stepCode 8#4
  | .repeatFrames => .sequence frameSequenceBits

/-! ### Words numbered as the opcode table numbers them -/

/-- A 36-bit word of the table, told apart by its bits: the fixed sequence; a word with the constants of the FRAME row; otherwise
a FIELD row whose `x` bits are written 0, the lettered field being the one where the word's 1 bits lie. -/
def tableWord36 (w : BitVec 36) : Option CodeWord :=
  if w = frameSequenceBits then some (.sequence w)
  else if w &&& 0xF03800000#36 = constantFrame then some (.frame36 w)
  else if w = 0#36 then none
  else if w &&& 0x0F0000000#36 = w then some (.field36 .house w)
  else if w &&& 0x00C000000#36 = w then some (.field36 .chan w)
  else if w &&& 0x0007F0000#36 = w then some (.field36 .hum w)
  else if w &&& 0x00000FFFE#36 = w then some (.field36 .temp w)
  else if w = 1#36 then some (.field36 .par w)
  else none

/-- The code word that `nbits` bits of value `w` stand for. A word alone does not carry its format, so the length decides
(entry 15): up to 3 bits a frame bit (LINE_SYMBOL), 4 to 16 bits a step code under the table's mask `0xF` (STEP), more than that a
36-bit word. -/
def tableWord (nbits w : Nat) : Option CodeWord :=
  if nbits ≤ 3 then (if w < 2 then some (.symbol (BitVec.ofNat 1 w)) else none)
  else if nbits ≤ 16 then some (.stepCode (BitVec.ofNat 4 w))
  else if w < 2 ^ 36 then tableWord36 (BitVec.ofNat 36 w)
  else none

/-- The instruction the decoder reads from the bits `w` of a word the table gives `nbits` bits. -/
def decodeTableWord (nbits w : Nat) : Option Instr :=
  match tableWord nbits w with
  | none => none
  | some cw =>
    match decode cw with
    | .ok i => some i
    | .error _ => none

end Sys2Proof
end

