-- ==== Sys2Proof/Machine/State.lean ====
section
/-! DEFINITION. The state of the block (spec/10_state.md), the reasons a step can stop, and the state after reset. -/

namespace Sys2Proof.Machine

/-- There is no fault: "The block raises no exception, fault or trap, for any input, in any state"
(spec/60_exceptions.md R130), so the type has no value. -/
inductive Fault where
  deriving DecidableEq, Repr

/-- What the boundary refuses (spec/60_exceptions.md R137). -/
inductive Refusal where
  /-- Raised by an arm of `exec` that has no meaning yet (no arm is left so). Safe: the machine stops. -/
  | notModelled (mnemonic : String)
  /-- Raised by `step` and by TRANSMIT's acceptance where the configuration breaks R5 (R137). Safe: the machine stops. -/
  | illegalConfig
  /-- Raised by TRANSMIT's acceptance, ONLY where the switch of U1 is on, for an operand outside its declared range
  (R131). Safe: the machine stops before any line activity. -/
  | invalidField
  /-- Raised by the host's conversion for a temperature that is no finite real (R65, D7). Safe: nothing is presented. -/
  | temperatureNotFinite
  /-- Raised by `step` for a direct operation whose code word is no row of the table (U15). Safe: the machine stops. -/
  | undecodable (why : DecodeError)
  deriving DecidableEq, Repr

/-- The state. The first fourteen fields are the tuple S at the head of spec/10_state.md; `cfg` is the static configuration of
R5 (entry 1); the last four are the model's own. -/
structure State where
  /-- `tx`: the level of the output line (R17). -/
  tx : Level
  /-- `pulseState`: the level the next bit begins at (R10). -/
  pulseState : Level
  /-- `parityBit`: the running even-parity accumulator (R11). -/
  parityBit : Bool
  /-- `F[HOUSE]` (R14). -/
  fHouse : BitVec 4
  /-- `F[CHAN]` (R14). -/
  fChan : BitVec 2
  /-- `F[HUM]` (R14). -/
  fHum : BitVec 7
  /-- `F[TEMP]` (R14). -/
  fTemp : BitVec 15
  /-- `phase` (R16). -/
  phase : Phase
  /-- `rep`: frames still to be completed (R15). -/
  rep : Nat
  /-- `step`: the entry of the frame sequence in progress (R15). -/
  step : Step
  /-- `bitidx`: index of the bit to send next (R15). -/
  bitidx : Nat
  /-- `half`: the second segment of a two-segment item is pending (R15). -/
  half : Bool
  /-- `timer`: clock cycles left in the current segment after the present one (R18). -/
  timer : Nat
  /-- `done` (R19). -/
  done : Bool
  /-- The static configuration (R5): written by nothing. -/
  cfg : Config
  /-- The model's own: the materialised frame (R30, R68), entry 7. -/
  frame : BitVec 36
  /-- The model's own: the segments driven since the last acceptance or reset, oldest first (R9), entry 6. -/
  line : List Segment
  /-- The model's own: what the host drives at the coming edges, soonest first (D27), entry 4. -/
  host : List Ports
  /-- The model's own: operations still to be run directly, outside the frame sequence (95_test_vectors P6), entry 5. -/
  micro : List CodeWord
  deriving DecidableEq, Repr

/-- `ResetState` (R21, R150), with the reference configuration (R5) and the model's own fields at the values of entries 2 and
4 to 7. -/
def State.reset : State :=
  { tx := .low, pulseState := .high, parityBit := false, fHouse := 0, fChan := 0, fHum := 0, fTemp := 0, phase := .idle,
    rep := 0, step := .start, bitidx := 0, half := false, timer := 0, done := false, cfg := Config.reference,
    frame := constantFrame, line := [], host := [], micro := [] }

end Sys2Proof.Machine
end

