-- ==== Sys2Proof/Machine/Flags.lean ====
section
/-! DEFINITION. The block's two flags, `pulseState` and `parityBit`, and the only ways they are written
(spec/10_state.md R10, R11): START sets both, SYM0 inverts `pulseState`, SYM1 inverts `parityBit`. -/

namespace Sys2Proof.Machine

/-- `parityBit <- 0` (R80). -/
def State.clearParity (s : State) : State := { s with parityBit := false }

/-- `pulseState <- HIGH` (R80). -/
def State.setPulseHigh (s : State) : State := { s with pulseState := .high }

/-- `pulseState <- not pulseState` (R81). -/
def State.invertPulse (s : State) : State := { s with pulseState := s.pulseState.not }

/-- `parityBit <- not parityBit` (R82). -/
def State.invertParity (s : State) : State := { s with parityBit := !s.parityBit }

end Sys2Proof.Machine
end

