-- ==== Sys2Proof/Machine/Waveform.lean ====
section
/-! DEFINITION. The block's output as a pure function, with no state machine (spec/41_pulse_transmitter.md R102), and the
observation of a waveform (spec/00_scope.md R9; R104; spec/42_control_interface.md R111, R118). -/

namespace Sys2Proof.Machine

/-- A waveform: segments in time order (R9). -/
abbrev Wave := List Segment

/-- `Syms(bits, P)` (R102): the segments that render `bits` from level `P`, and the level after them. -/
def syms (c : Config) : List Bool → Level → Wave × Level
  | [], p => ([], p)
  | false :: rest, p => (⟨p, c.tLong⟩ :: (syms c rest p.not).1, (syms c rest p.not).2)
  | true :: rest, p => (⟨p, c.tShort⟩ :: ⟨p.not, c.tShort⟩ :: (syms c rest p).1, (syms c rest p).2)

/-- END's segments from `pulseState = P` (R96). -/
def endSegs (c : Config) (p : Level) : Wave :=
  (if p = .high then [⟨.high, c.tHalf⟩] else []) ++ [⟨.low, c.tTrigger⟩]

/-- `Framed(bits)`: START, the symbols of `bits`, END (R102). -/
def framed (c : Config) (bits : List Bool) : Wave :=
  [⟨.low, c.tTrigger⟩] ++ (syms c bits .high).1 ++ endSegs c (syms c bits .high).2

/-- `FrameWave`: the waveform of one 36-bit frame (R102). -/
def frameWave (c : Config) (frame : BitVec 36) : Wave := framed c (bitsMsb frame)

/-- `Transmit(n, ...)`: `FrameWave` repeated `n` times, `[]` when `n = 0` (R102). -/
def transmitWave (c : Config) : Nat → BitVec 36 → Wave
  | 0, _ => []
  | n + 1, frame => frameWave c frame ++ transmitWave c n frame

/-- The microseconds a waveform lasts (R104). -/
def duration : Wave → Nat
  | [] => 0
  | g :: rest => g.dur + duration rest

/-- `Merge(w)`: every run of adjacent segments of the same level replaced by one (R9). -/
def merge : Wave → Wave
  | [] => []
  | g :: rest =>
    match merge rest with
    | [] => [g]
    | h :: t => if g.level = h.level then ⟨g.level, g.dur + h.dur⟩ :: t else g :: h :: t

/-- The level of the line in each clock cycle of a waveform: each segment `(L, D)` expanded to `D * CYCLES_PER_US` cycles of `L`
(R111, R118). -/
def cycles (c : Config) : Wave → List Level
  | [] => []
  | g :: rest => List.replicate (g.dur * c.cyclesPerUs) g.level ++ cycles c rest

/-- The number of bits of a list that are `b`: `z` and `o` of R104. -/
def countBits (b : Bool) : List Bool → Nat
  | [] => 0
  | x :: xs => (if x = b then 1 else 0) + countBits b xs

end Sys2Proof.Machine
end

