-- ==== Sys2Proof/Machine/Ops.lean ====
section
/-! DEFINITION. The shared operations of the block: driving the line, the bits a step sends, the sequencer `NextSeg`
(spec/41_pulse_transmitter.md R99), one edge of the cycle rule in `RUN` (spec/42_control_interface.md R114), the latching of
operands, acceptance (R113) and reset (spec/70_reset_and_hazards.md R150). The block has no exception, so there is no operation that
takes one and none that returns from one (spec/60_exceptions.md R130, R134). -/

namespace Sys2Proof.Machine

/-! ### The line -/

/-- The first cycle of a segment `(L, D)`: `tx <- L ; timer <- D * CYCLES_PER_US - 1` (R18, R114). The segment joins the
record of the waveform (entry 6). -/
def State.issue (s : State) (g : Segment) : State :=
  { s with tx := g.level, timer := g.dur * s.cfg.cyclesPerUs - 1, line := s.line ++ [g] }

/-- The remaining cycles of the current segment pass. -/
def State.elapse (s : State) : State := { s with timer := 0 }

/-- `Drive(L, D)`: set the line to `L` and keep it there for exactly `D` microseconds (R9). -/
def State.drive (s : State) (l : Level) (d : Nat) : State := (s.issue ⟨l, d⟩).elapse

/-- The waveform of a list of segments driven one after the other, with no gap (R9). -/
def State.driveAll (s : State) : Wave → State
  | [] => s
  | g :: rest => (s.drive g.level g.dur).driveAll rest

/-! ### What the steps send -/

/-- The bits a field step sends, first to last: `src(step)` at `width(step)`, most significant first (R47, R84 to R91). START and
END send none. -/
def State.stepBits (s : State) : Step → List Bool
  | .start => []
  | .emitPre => bitsMsb 0b1100#4
  | .emitHouse => bitsMsb s.fHouse
  | .emitChan => bitsMsb s.fChan
  | .emitSep => bitsMsb 0b110#3
  | .emitHum => bitsMsb s.fHum
  | .emitTemp => bitsMsb s.fTemp
  | .emitPar => [s.parityBit]
  | .endFrame => []

/-- `src(step)[bitidx]`; for EMIT_PAR, `parityBit` (R99). -/
def State.srcBit (s : State) : Step → Nat → Bool
  | .start, _ => false
  | .emitPre, i => (0b1100#4).getLsbD i
  | .emitHouse, i => s.fHouse.getLsbD i
  | .emitChan, i => s.fChan.getLsbD i
  | .emitSep, i => (0b110#3).getLsbD i
  | .emitHum, i => s.fHum.getLsbD i
  | .emitTemp, i => s.fTemp.getLsbD i
  | .emitPar, _ => s.parityBit
  | .endFrame, _ => false

/-! ### The sequencer (R99) -/

/-- `Advance` (R99). `width(END) - 1` is 0 over the naturals, which is the "else 0" of the rule. -/
def State.advance (s : State) : State :=
  if 0 < s.bitidx then { s with bitidx := s.bitidx - 1 }
  else { s with step := stepNext s.step, bitidx := stepWidth (stepNext s.step) - 1 }

/-- What `NextSeg` returns: `Seg(L, D)` with the state updated, or `Finish`. -/
inductive SegResult where
  | seg (s : State) (g : Segment)
  | finish
  deriving DecidableEq, Repr

/-- START's arm of `NextSeg`. -/
def State.startSeg (s : State) : SegResult :=
  .seg { s with parityBit := false, pulseState := .high, step := .emitPre, bitidx := 3, half := false } ⟨.low, s.cfg.tTrigger⟩

/-- The arm of `NextSeg` for EMIT_PRE to EMIT_PAR. -/
def State.emitSeg (s : State) : SegResult :=
  if s.half then
    .seg { s with parityBit := !s.parityBit, half := false }.advance ⟨s.pulseState.not, s.cfg.tShort⟩
  else if s.srcBit s.step s.bitidx then
    .seg { s with half := true } ⟨s.pulseState, s.cfg.tShort⟩
  else
    .seg { s with pulseState := s.pulseState.not }.advance ⟨s.pulseState, s.cfg.tLong⟩

/-- END's arm of `NextSeg`. -/
def State.endSeg (s : State) : SegResult :=
  if s.half = false ∧ s.pulseState = .high then
    .seg { s with half := true } ⟨.high, s.cfg.tHalf⟩
  else
    .seg { s with half := false, rep := s.rep - 1, step := .start, bitidx := 0 } ⟨.low, s.cfg.tTrigger⟩

/-- `NextSeg` (R99). -/
def State.nextSeg (s : State) : SegResult :=
  if s.rep = 0 then .finish
  else
    match s.step with
    | .start => s.startSeg
    | .emitPre => s.emitSeg
    | .emitHouse => s.emitSeg
    | .emitChan => s.emitSeg
    | .emitSep => s.emitSeg
    | .emitHum => s.emitSeg
    | .emitTemp => s.emitSeg
    | .emitPar => s.emitSeg
    | .endFrame => s.endSeg

/-- `case NextSeg of ...` of the cycle rule (R114). -/
def State.sequence (s : State) : State :=
  match s.nextSeg with
  | .seg s' g => s'.issue g
  | .finish => { s with phase := .idle, done := true }

/-- One edge in `RUN` with `rst = 0` (R114): the inputs are not read. -/
def State.runEdge (s : State) : State :=
  if s.timer = 0 then s.sequence else { s with timer := s.timer - 1 }

/-! ### Latching, acceptance, reset -/

/-- The four field latches written together (R14, R113), and the materialised frame with them (entry 7). -/
def State.latch (s : State) (house channel humidity : BitVec 8) (tempQ7 : BitVec 16) : State :=
  { s with fHouse := houseField house, fChan := chanField channel, fHum := humField humidity, fTemp := tempField tempQ7,
           frame := frameOfPorts house channel humidity tempQ7 }

/-- `seq <- (REPEATS, START, 0, 0)` (R113, R100). -/
def State.loadSequencer (s : State) : State :=
  { s with rep := s.cfg.repeats, step := .start, bitidx := 0, half := false }

/-- TRANSMIT acceptance (R113). `REPEATS >= 1`, so `NextSeg` is START's hold. The record of the waveform starts anew (entry 6). -/
def State.accept (s : State) (house channel humidity : BitVec 8) (tempQ7 : BitVec 16) : State :=
  ({ (s.latch house channel humidity tempQ7).loadSequencer with phase := .run, done := false, line := [] }).sequence

/-- `S <- ResetState` (R114, R150). The configuration is static (R5); what the outside still has to do stays (entry 25). -/
def State.resetEdge (s : State) : State :=
  { State.reset with cfg := s.cfg, host := s.host, micro := s.micro }

/-- Output port `busy` (R110, R16). -/
def State.busy (s : State) : Bool := decide (s.phase = .run)

/-- The frame the latches hold (R68). -/
def State.latchedFrame (s : State) : BitVec 36 := frameOfFields s.fHouse s.fChan s.fHum s.fTemp

end Sys2Proof.Machine
end

