-- ==== Sys2Proof/Machine/Command.lean ====
section
/-! DEFINITION. The TRANSMIT command (spec/42_control_interface.md R113, R116) and the host's side of the call (R112). -/

namespace Sys2Proof.Machine

/-- TRANSMIT presented at one edge with `rst = 0`. In `IDLE` it is accepted (R113), with no operand refused (R48) unless the switch
of U1 is on (R131); the configuration must be legal (R137). In `RUN` it "has no effect: it is not accepted, not queued and not
remembered" (R116), so the edge is the edge of the transmission in progress. -/
def execTransmit (house channel humidity : BitVec 8) (tempQ7 : BitVec 16) (s : State) : Host.Outcome State Fault Refusal :=
  match s.phase with
  | .run => .next s.runEdge
  | .idle =>
    if !configLegal s.cfg then .refused .illegalConfig
    else if !admits s.cfg house channel humidity tempQ7 then .refused .invalidField
    else .next (s.accept house channel humidity tempQ7)

/-- The source's entry point as the host issues it: the ports for the next edge (R42, R112), or a refusal where the temperature is no
finite real (R65, R137). -/
def presentCall (house channel humidity : Int) (t : Temperature) (s : State) : Host.Outcome State Fault Refusal :=
  match t with
  | .celsius t => .next { s with host := portsOfCall house channel humidity t :: s.host }
  | .notFinite => .refused .temperatureNotFinite

end Sys2Proof.Machine
end

