-- ==== Sys2Proof/Machine/Encoder.lean ====
section
/-! DEFINITION. The Frame Encoder's operations (spec/40_frame_encoder.md): FIELD_HOUSE, ENC_CHAN, FIELD_HUM, ENC_TEMP, PARITY and
FRAME. A field operation writes the latch its pseudocode names (R60 to R63, entry 17); each puts the bits its table row letters into the
materialised frame (entry 7); none touches a flag, the line or the sequencer, and none can stop (R64). -/

namespace Sys2Proof.Machine

/-- FIELD_HOUSE: `F[HOUSE] <- house[3:0]`, frame bits 31:28 (R60). -/
def execFieldHouse (house : BitVec 8) (s : State) : Host.Outcome State Fault Refusal :=
  .next { s with fHouse := houseField house, frame := putField s.frame 28 (houseField house) }

/-- ENC_CHAN: `F[CHAN] <- (uval(channel) - 1) mod 4`, frame bits 27:26 (R61). -/
def execEncChan (channel : BitVec 8) (s : State) : Host.Outcome State Fault Refusal :=
  .next { s with fChan := chanField channel, frame := putField s.frame 26 (chanField channel) }

/-- FIELD_HUM: `F[HUM] <- humidity[6:0]`, frame bits 22:16 (R63). -/
def execFieldHum (humidity : BitVec 8) (s : State) : Host.Outcome State Fault Refusal :=
  .next { s with fHum := humField humidity, frame := putField s.frame 16 (humField humidity) }

/-- ENC_TEMP: `F[TEMP] <- (sval(temp_q7) + 6400) mod 32768`, frame bits 15:1 (R62). -/
def execEncTemp (tempQ7 : BitVec 16) (s : State) : Host.Outcome State Fault Refusal :=
  .next { s with fTemp := tempField tempQ7, frame := putField s.frame 1 (tempField tempQ7) }

/-- PARITY: `PAR = XOR(B[34:0])` of the latches, frame bit 0 (R67). It writes no flag: the accumulator is the transmitter's. -/
def execParity (s : State) : Host.Outcome State Fault Refusal :=
  .next { s with frame := putField s.frame 0 (BitVec.ofBool (parityOf (dataBits s.fHouse s.fChan s.fHum s.fTemp))) }

/-- FRAME: the value `FRAME = B ++ XOR(B)` of the operands (R68), into the materialised frame (entry 7). Its pseudocode writes no latch, and
R14 leaves that to the acceptance. -/
def execFrame (house channel humidity : BitVec 8) (tempQ7 : BitVec 16) (s : State) : Host.Outcome State Fault Refusal :=
  .next { s with frame := frameOfPorts house channel humidity tempQ7 }

end Sys2Proof.Machine
end

