-- ==== Sys2Proof/Machine/Symbols.lean ====
section
/-! DEFINITION. The two line symbols and EMIT (spec/41_pulse_transmitter.md R81 to R83), as whole operations: what they drive, in
order, with time passing inside (entry 9). -/

namespace Sys2Proof.Machine

/-- `Drive(P, T_LONG); pulseState <- not P` (R81). -/
def State.sym0 (s : State) : State := (s.drive s.pulseState s.cfg.tLong).invertPulse

/-- `Drive(P, T_SHORT); Drive(not P, T_SHORT); parityBit <- not parityBit` (R82). -/
def State.sym1 (s : State) : State :=
  ((s.drive s.pulseState s.cfg.tShort).drive s.pulseState.not s.cfg.tShort).invertParity

/-- EMIT of a list of bits in transmission order: "if v[i] = 0 then SYM0 else SYM1" (R83). -/
def State.emitBits (s : State) : List Bool → State
  | [] => s
  | false :: rest => s.sym0.emitBits rest
  | true :: rest => s.sym1.emitBits rest

/-- SYM0 (R81). -/
def execSym0 (s : State) : Host.Outcome State Fault Refusal := .next s.sym0

/-- SYM1 (R82). -/
def execSym1 (s : State) : Host.Outcome State Fault Refusal := .next s.sym1

end Sys2Proof.Machine
end

