-- ==== Sys2Proof/Machine/Steps.lean ====
section
/-! DEFINITION. The nine steps of the frame sequence as whole operations (spec/41_pulse_transmitter.md R80, R84 to R91, R96). They do
not move the sequencer position: that is `NextSeg`'s (R99), or REPEAT's (entry 23). -/

namespace Sys2Proof.Machine

/-- START: `parityBit <- 0; Drive(LOW, T_TRIGGER); pulseState <- HIGH` (R80). -/
def State.startOp (s : State) : State := (s.clearParity.drive .low s.cfg.tTrigger).setPulseHigh

/-- A field step: EMIT of the bits it sends, read once when the step begins (R83, R91). -/
def State.emitStep (s : State) (st : Step) : State := s.emitBits (s.stepBits st)

/-- END: `if pulseState = HIGH then Drive(HIGH, T_HALF); Drive(LOW, T_TRIGGER)` (R96). -/
def State.endOp (s : State) : State :=
  (if s.pulseState = .high then s.drive .high s.cfg.tHalf else s).drive .low s.cfg.tTrigger

/-- START (R80). -/
def execStart (s : State) : Host.Outcome State Fault Refusal := .next s.startOp

/-- EMIT_PRE: `EMIT(0b1100, 4)` (R84). -/
def execEmitPre (s : State) : Host.Outcome State Fault Refusal := .next (s.emitStep .emitPre)

/-- EMIT_HOUSE: `EMIT(F[HOUSE], 4)` (R85). -/
def execEmitHouse (s : State) : Host.Outcome State Fault Refusal := .next (s.emitStep .emitHouse)

/-- EMIT_CHAN: `EMIT(F[CHAN], 2)` (R86). -/
def execEmitChan (s : State) : Host.Outcome State Fault Refusal := .next (s.emitStep .emitChan)

/-- EMIT_SEP: `EMIT(0b110, 3)` (R87). -/
def execEmitSep (s : State) : Host.Outcome State Fault Refusal := .next (s.emitStep .emitSep)

/-- EMIT_HUM: `EMIT(F[HUM], 7)` (R88). -/
def execEmitHum (s : State) : Host.Outcome State Fault Refusal := .next (s.emitStep .emitHum)

/-- EMIT_TEMP: `EMIT(F[TEMP], 15)` (R89). -/
def execEmitTemp (s : State) : Host.Outcome State Fault Refusal := .next (s.emitStep .emitTemp)

/-- EMIT_PAR: `EMIT(parityBit, 1)` (R91). -/
def execEmitPar (s : State) : Host.Outcome State Fault Refusal := .next (s.emitStep .emitPar)

/-- END (R96). -/
def execEndFrame (s : State) : Host.Outcome State Fault Refusal := .next s.endOp

end Sys2Proof.Machine
end

