-- ==== Sys2Proof/Machine/Sequence.lean ====
section
/-! DEFINITION. The frame sequence and the repeat loop (spec/41_pulse_transmitter.md R97, R100). -/

namespace Sys2Proof.Machine

/-- Steps 0 to 8 in ascending order, each once (R97). -/
def State.frameSequence (s : State) : State :=
  ((((((((s.startOp).emitStep .emitPre).emitStep .emitHouse).emitStep .emitChan).emitStep .emitSep).emitStep .emitHum).emitStep
    .emitTemp).emitStep .emitPar).endOp

/-- The counted loop: "no exit condition other than the count"; END counts `rep` down (R99, R100). -/
def State.frames (s : State) : Nat → State
  | 0 => s
  | n + 1 => State.frames { s.frameSequence with rep := s.rep - 1 } n

/-- REPEAT: `rep` loaded with `REPEATS`, then the frame sequence that many times, back at START with `rep = 0` (R100). -/
def execRepeatFrames (s : State) : Host.Outcome State Fault Refusal := .next (s.loadSequencer.frames s.cfg.repeats)

end Sys2Proof.Machine
end

