-- ==== Sys2Proof/Machine/Dispatch.lean ====
section
/-! DEFINITION. One arm per row of spec/opcode_table.json. -/

namespace Sys2Proof.Machine

def exec (i : Instr) (s : State) : Host.Outcome State Fault Refusal :=
  match i with
  | .transmit house channel humidity tempQ7 => Sys2Proof.Machine.execTransmit house channel humidity tempQ7 s
  | .frame house channel humidity tempQ7 => Sys2Proof.Machine.execFrame house channel humidity tempQ7 s
  | .fieldHouse house => Sys2Proof.Machine.execFieldHouse house s
  | .encChan channel => Sys2Proof.Machine.execEncChan channel s
  | .fieldHum humidity => Sys2Proof.Machine.execFieldHum humidity s
  | .encTemp tempQ7 => Sys2Proof.Machine.execEncTemp tempQ7 s
  | .parity => Sys2Proof.Machine.execParity s
  | .sym0 => Sys2Proof.Machine.execSym0 s
  | .sym1 => Sys2Proof.Machine.execSym1 s
  | .start => Sys2Proof.Machine.execStart s
  | .emitPre => Sys2Proof.Machine.execEmitPre s
  | .emitHouse => Sys2Proof.Machine.execEmitHouse s
  | .emitChan => Sys2Proof.Machine.execEmitChan s
  | .emitSep => Sys2Proof.Machine.execEmitSep s
  | .emitHum => Sys2Proof.Machine.execEmitHum s
  | .emitTemp => Sys2Proof.Machine.execEmitTemp s
  | .emitPar => Sys2Proof.Machine.execEmitPar s
  | .endFrame => Sys2Proof.Machine.execEndFrame s
  | .repeatFrames => Sys2Proof.Machine.execRepeatFrames s

end Sys2Proof.Machine
end

