-- ==== Sys2Proof/Machine/Clock.lean ====
section
/-! DEFINITION. What one step does, which Step.lean only calls: one rising edge of `clk` (spec/42_control_interface.md R114), or one
operation run directly (spec/95_test_vectors.md P6; entry 5). -/

namespace Sys2Proof.Machine

/-- The cycle rule (R114) with the ports `ins` sampled, in its priority order (spec/60_exceptions.md R133): `rst`; `RUN`, where nothing
else is read; `IDLE`, where `done` is cleared and a strobe is accepted. A configuration that breaks R5 is refused (R137). -/
def State.edge (s : State) (ins : Ports) : Host.Outcome State Fault Refusal :=
  if !configLegal s.cfg then .refused .illegalConfig
  else if ins.rst then .next s.resetEdge
  else
    match s.phase with
    | .run => .next s.runEdge
    | .idle =>
      match decode (.strobe ins) with
      | .ok i => exec i { s with done := false }
      | .error _ => .next { s with done := false }

/-- The ports at the next edge: the head of what the host drives, all 0 past its end. -/
def State.portsNow (s : State) : Ports := s.host.headD Ports.quiet

/-- One rising edge, the host's list one shorter. -/
def State.clockEdge (s : State) : Host.Outcome State Fault Refusal :=
  State.edge { s with host := s.host.tail } s.portsNow

/-- One operation run directly, outside the frame sequence: the word is decoded and the operation run whole. No duration and no
`CYCLES_PER_US` may be 0 (R5, R137); `REPEATS` may be any number here, as in the waveform functions (R5, entry 12).

DESIGN CHOICE, entry 27: a TRANSMIT word is an acceptance (R113) with the word's own operands, no port sampled and no edge taken; it sets
RUN and clears `done`, where every other operation leaves both alone (entry 22). A strobe word with `rst = 1` or `start = 0` is
refused. -/
def State.direct (s : State) (cw : CodeWord) : Host.Outcome State Fault Refusal :=
  if !timingLegal s.cfg then .refused .illegalConfig
  else
    match decode cw with
    | .ok i => exec i s
    | .error e => .refused (.undecodable e)

/-- One step: an idle block with direct operations pending runs the first of them; otherwise a clock edge. In RUN the pending words wait
until the block is idle again (DESIGN CHOICE, entry 27). -/
def State.stepOnce (s : State) : Host.Outcome State Fault Refusal :=
  match s.phase, s.micro with
  | .idle, cw :: rest => State.direct { s with micro := rest } cw
  | .idle, [] => s.clockEdge
  | .run, _ => s.clockEdge

/-- Put a code word where the next step finds its operation: the block idle, the word first among the direct operations. -/
def State.place (s : State) (cw : CodeWord) : State := { s with phase := .idle, micro := cw :: s.micro }

/-- `place` for a word numbered as the opcode table numbers it; bits that are no code word place nothing. -/
def State.placeTableWord (s : State) (nbits w : Nat) : State :=
  match tableWord nbits w with
  | some cw => s.place cw
  | none => s

end Sys2Proof.Machine
end

