-- ==== Sys2Proof/Machine/Step.lean ====
section
/-! DEFINITION. One step of the machine. -/

namespace Sys2Proof.Machine

/-- One step: `State.stepOnce`. -/
def step (s : State) : Host.Outcome State Fault Refusal := s.stepOnce

/-- The state with an instruction where the next step runs it (entry 8). -/
def State.withFetchWord (s : State) (nbits w : Nat) : State := s.placeTableWord nbits w

end Sys2Proof.Machine
end

