-- ==== Sys2Proof/Safety.lean ====
section
/-! DEFINITION. The words the claims are stated in: bits most significant first, what an operation puts into the frame, a run of
operations, a run of the sequencer, where a transmission stands and what is left of it, and the invariant of a safe state. -/

namespace Sys2Proof.Machine

/-! ### Bits and frames -/

/-- `v[w-1], v[w-2], ..., v[0]` (spec/20_memory.md R32). -/
def msbFirst {w : Nat} (v : BitVec w) : List Bool := (List.range w).map fun j => v.getLsbD (w - 1 - j)

/-- The number of 1 bits is odd (spec/40_frame_encoder.md R67). -/
def oddOnes (bits : List Bool) : Bool := decide (countBits true bits % 2 = 1)

/-- The frame bits `lo` to `lo + w - 1` of `new` are `v` and every other one is that of `old` (spec/30_encoding.md R40). -/
def PutsBits {w : Nat} (lo : Nat) (v : BitVec w) (old new : BitVec 36) : Prop :=
  ∀ i, new.getLsbD i = if lo ≤ i ∧ i < lo + w then v.getLsbD (i - lo) else old.getLsbD i

/-! ### Runs -/

/-- A micro-program: operations run one after the other (spec/95_test_vectors.md P6). -/
def execAll : List Instr → State → Host.Outcome State Fault Refusal
  | [], s => .next s
  | i :: rest, s =>
    match exec i s with
    | .next t => execAll rest t
    | .fault f => .fault f
    | .refused r => .refused r

/-- The operations of one frame up to EMIT_TEMP, START first (spec/41_pulse_transmitter.md R97). -/
def throughTemp : List Instr := [.start, .emitPre, .emitHouse, .emitChan, .emitSep, .emitHum, .emitTemp]

/-- The operations of one frame up to EMIT_PAR. -/
def throughPar : List Instr := throughTemp ++ [.emitPar]

/-- The nine steps of one frame (R97). -/
def wholeFrame : List Instr := throughPar ++ [.endFrame]

/-- `n` successive calls of `NextSeg`, each segment lasting its full time; none when one of them returns `Finish` (R103). -/
def State.segments : Nat → State → Option State
  | 0, s => some s
  | n + 1, s =>
    match s.nextSeg with
    | .seg t g => State.segments n (t.issue g).elapse
    | .finish => none

/-- The sequencer stands at the beginning of its step. -/
def State.AtStepStart (s : State) : Prop := s.rep ≠ 0 ∧ s.half = false ∧ s.bitidx = stepWidth s.step - 1

/-- The sequencer moved on to the beginning of the next step; out of END, one frame fewer is left (R99). -/
def State.atNextStep (s : State) : State :=
  { s with step := stepNext s.step, bitidx := stepWidth (stepNext s.step) - 1, half := false,
           rep := if s.step = .endFrame then s.rep - 1 else s.rep }

/-- Every one of the coming edges has `rst = 0`. -/
def noReset (ps : List Ports) : Prop := ∀ p ∈ ps, p.rst = false

/-! ### Where a transmission stands -/

/-- The number of frame bits before a step. -/
def stepOffset : Step → Nat
  | .start => 0
  | .emitPre => 0
  | .emitHouse => 4
  | .emitChan => 8
  | .emitSep => 10
  | .emitHum => 13
  | .emitTemp => 20
  | .emitPar => 35
  | .endFrame => 36

/-- The number of frame bits whose symbols are complete. -/
def State.sent (s : State) : Nat := stepOffset s.step + (stepWidth s.step - 1 - s.bitidx)

/-- The 36 bits of the frame in progress, in transmission order (R68, R92). -/
def State.frameBits (s : State) : List Bool := bitsMsb s.latchedFrame

/-- The symbols of `bits` from level `p`, then END (R102). -/
def symsEnd (c : Config) (bits : List Bool) (p : Level) : Wave :=
  (syms c bits p).1 ++ endSegs c (syms c bits p).2

/-- The segments of the frame in progress that are still to be issued. -/
def State.restOfFrame (s : State) : Wave :=
  match s.step with
  | .start => frameWave s.cfg s.latchedFrame
  | .endFrame => if s.half then [⟨.low, s.cfg.tTrigger⟩] else endSegs s.cfg s.pulseState
  | _ =>
    if s.half then ⟨s.pulseState.not, s.cfg.tShort⟩ :: symsEnd s.cfg (s.frameBits.drop (s.sent + 1)) s.pulseState
    else symsEnd s.cfg (s.frameBits.drop s.sent) s.pulseState

/-- The segments of the transmission that are still to be issued. -/
def State.remaining (s : State) : Wave :=
  if s.rep = 0 then [] else s.restOfFrame ++ transmitWave s.cfg (s.rep - 1) s.latchedFrame

/-! ### The invariant -/

/-- The sequencer position is one that R15 and R99 give: `bitidx` inside the field, no pending half at START, and with no frame left
only the wait for the last hold. -/
def State.PositionOk (s : State) : Prop :=
  s.rep ≤ s.cfg.repeats ∧ (s.rep = 0 → s.step = .start) ∧ (s.step = .start → s.half = false)
    ∧ s.bitidx ≤ stepWidth s.step - 1

/-- The flags and the line agree with the bits sent: the accumulator law (R92), `tx = not pulseState` at a symbol boundary (R12), HIGH
and LOW on entry to END (R94), the state at the end of a frame (R98). -/
def State.FlagsOk (s : State) : Prop :=
  if s.step = .start then s.tx = .low ∧ s.pulseState = .high ∧ s.parityBit = false
  else s.parityBit = xorBits (s.frameBits.take s.sent)
    ∧ s.pulseState = (syms s.cfg (s.frameBits.take s.sent) .high).2
    ∧ s.tx = (if s.half then s.pulseState else s.pulseState.not)
    ∧ (s.half = true → s.step ≠ .endFrame → s.frameBits[s.sent]? = some true)

/-- What was driven and what is left are together the waveform of the operands (R103). -/
def State.WaveOk (s : State) : Prop :=
  s.line ++ s.remaining = transmitWave s.cfg s.cfg.repeats s.latchedFrame

/-- A safe state of the clocked block: a legal configuration (R5), no direct operation pending, the timer inside its width (R18,
R136), the line low and the timer spent when idle (R17, spec/10_state.md R16), `done` never beside `busy` (R19), and in `RUN` the
position, flags and waveform above. -/
structure State.Inv (s : State) : Prop where
  config : configLegal s.cfg = true
  clocked : s.micro = []
  timer : s.timer < tMax s.cfg * s.cfg.cyclesPerUs
  idle : s.phase = .idle → s.tx = .low ∧ s.timer = 0
  busyNotDone : s.phase = .run → s.done = false
  position : s.phase = .run → s.PositionOk
  flags : s.phase = .run → s.FlagsOk
  wave : s.phase = .run → s.WaveOk

end Sys2Proof.Machine
end

