-- ==== Sys2Proof/Certificates/Slice0/Obligations.lean ====
section
/-! DEFINITION. The statements about the model, from the numbered rules of spec/. -/

open Sys2Proof Sys2Proof.Machine Host

/-! ### The Frame Encoder -/

/-- R60: for every integer `house` as the port carries it, FIELD_HOUSE completes with `F[HOUSE] = house mod 16`, the low four port
bits, and writes no flag and nothing else of the block (what it does to the model's `frame` is
`FieldOperationsFillTheirFrameBits`). -/
def Obligations.HouseFieldIsHouseModSixteen : Prop :=
  ∀ (house : Int) (s : State), ∃ t,
    exec (.fieldHouse (BitVec.ofInt 8 house)) s = .next t
      ∧ (t.fHouse.toNat : Int) = house % 16
      ∧ t.fHouse = (BitVec.ofInt 8 house).extractLsb' 0 4
      ∧ t = { s with fHouse := t.fHouse, frame := t.frame }

/-- R61: for every integer `channel` as the port carries it, ENC_CHAN completes with `F[CHAN] = (channel - 1) mod 4`, for which the
low two port bits are enough, and writes no flag and nothing else of the block. -/
def Obligations.ChannelFieldIsChannelMinusOneModFour : Prop :=
  ∀ (channel : Int) (s : State), ∃ t,
    exec (.encChan (BitVec.ofInt 8 channel)) s = .next t
      ∧ (t.fChan.toNat : Int) = (channel - 1) % 4
      ∧ (t.fChan.toNat : Int) = ((((BitVec.ofInt 8 channel).extractLsb' 0 2).toNat : Int) - 1) % 4
      ∧ t = { s with fChan := t.fChan, frame := t.frame }

/-- R63: for every integer `humidity` as the port carries it, FIELD_HUM completes with `F[HUM] = humidity mod 128`, the low seven port
bits, and writes no flag and nothing else of the block. -/
def Obligations.HumidityFieldIsHumidityModOneTwentyEight : Prop :=
  ∀ (humidity : Int) (s : State), ∃ t,
    exec (.fieldHum (BitVec.ofInt 8 humidity)) s = .next t
      ∧ (t.fHum.toNat : Int) = humidity % 128
      ∧ t.fHum = (BitVec.ofInt 8 humidity).extractLsb' 0 7
      ∧ t = { s with fHum := t.fHum, frame := t.frame }

/-- R62: ENC_TEMP completes, for every port value with `F[TEMP] = (sval(temp_q7) + 6400) mod 32768`, for which the low fifteen port
bits are enough, and for every rational temperature as the host presents it with
`F[TEMP] = (floor(temperature * 128) + 6400) mod 32768`, where the sum is exactly `floor((temperature + 50) * 128)`; it writes no flag and nothing
else of the block. -/
def Obligations.TemperatureFieldIsFlooredOffsetAndWrapped : Prop :=
  (∀ (tempQ7 : BitVec 16) (s : State), ∃ t,
    exec (.encTemp tempQ7) s = .next t
      ∧ (t.fTemp.toNat : Int) = (tempQ7.toInt + 6400) % 32768
      ∧ t.fTemp.toNat = ((tempQ7.extractLsb' 0 15).toNat + 6400) % 32768
      ∧ t = { s with fTemp := t.fTemp, frame := t.frame })
  ∧ (∀ (temperature : Rat) (s : State), ∃ t,
    exec (.encTemp (BitVec.ofInt 16 (quantise temperature))) s = .next t
      ∧ (t.fTemp.toNat : Int) = (⌊temperature * 128⌋ + 6400) % 32768
      ∧ ⌊temperature * 128⌋ + 6400 = ⌊(temperature + 50) * 128⌋)

/-- R67 at the model's `frame` (entry 7): PARITY completes with frame bit 0 equal to 1 iff the number of 1 bits among the 35 data bits
made of the latches is odd, the other frame bits kept, and changes nothing else (no flag: the accumulator is the transmitter's). -/
def Obligations.ParityBitIsOddnessOfDataBits : Prop :=
  ∀ s : State, ∃ t,
    exec .parity s = .next t
      ∧ PutsBits 0 (BitVec.ofBool (oddOnes (msbFirst (0b1100#4 ++ s.fHouse ++ s.fChan ++ 0b110#3 ++ s.fHum ++ s.fTemp))))
          s.frame t.frame
      ∧ t = { s with frame := t.frame }

/-- Entry 7, the model's choice (the spec's block holds no frame, R30): run alone, a field operation puts the field it computes into the
frame bits its table row letters (R40) and keeps every other bit of the materialised frame. -/
def Obligations.FieldOperationsFillTheirFrameBits : Prop :=
  ∀ (operand : BitVec 8) (tempQ7 : BitVec 16) (s : State),
    (∃ t, exec (.fieldHouse operand) s = .next t ∧ PutsBits 28 t.fHouse s.frame t.frame)
    ∧ (∃ t, exec (.encChan operand) s = .next t ∧ PutsBits 26 t.fChan s.frame t.frame)
    ∧ (∃ t, exec (.fieldHum operand) s = .next t ∧ PutsBits 16 t.fHum s.frame t.frame)
    ∧ (∃ t, exec (.encTemp tempQ7) s = .next t ∧ PutsBits 1 t.fTemp s.frame t.frame)

/-- R40 and R68 at the model's `frame` (entry 7, the model's choice: the block need hold no frame): FRAME completes with the four encoded
operands, the constants and the parity where R40's table puts them, so that the table's match under its mask holds. It writes no
latch (R14) and nothing else. -/
def Obligations.FrameIsLaidOutAsTheFormatSays : Prop :=
  ∀ (house channel humidity : BitVec 8) (tempQ7 : BitVec 16) (s : State), ∃ t,
    exec (.frame house channel humidity tempQ7) s = .next t
      ∧ t.frame.extractLsb' 32 4 = 0b1100#4
      ∧ (t.frame.extractLsb' 28 4).toNat = house.toNat % 16
      ∧ ((t.frame.extractLsb' 26 2).toNat : Int) = ((channel.toNat : Int) - 1) % 4
      ∧ t.frame.extractLsb' 23 3 = 0b110#3
      ∧ (t.frame.extractLsb' 16 7).toNat = humidity.toNat % 128
      ∧ ((t.frame.extractLsb' 1 15).toNat : Int) = (tempQ7.toInt + 6400) % 32768
      ∧ t.frame.getLsbD 0 = oddOnes (msbFirst (t.frame.extractLsb' 1 35))
      ∧ t.frame &&& 0xF03800000#36 = 0xC03000000#36
      ∧ t = { s with frame := t.frame }

/-- The five field operations, PARITY last, build in the materialised frame what FRAME makes whole, wherever the seven constant bits
already stand there (they do at reset, entry 7). They differ from FRAME in the latches alone, which the field operations write
(entry 17) and which then hold that same frame. -/
def Obligations.FieldOperationsComposeToFrame : Prop :=
  ∀ (house channel humidity : BitVec 8) (tempQ7 : BitVec 16) (s : State),
    s.frame &&& 0xF03800000#36 = 0xC03000000#36 →
      ∃ t u, execAll [.fieldHouse house, .encChan channel, .fieldHum humidity, .encTemp tempQ7, .parity] s = .next t
        ∧ exec (.frame house channel humidity tempQ7) s = .next u
        ∧ t = { u with fHouse := t.fHouse, fChan := t.fChan, fHum := t.fHum, fTemp := t.fTemp }
        ∧ t.latchedFrame = u.frame

/-- R69: for every operand tuple the exclusive-or of the 36 frame bits is 0, that is the number of 1 bits is even; so it is for the
frame that FRAME leaves. -/
def Obligations.EveryFrameHasEvenParity : Prop :=
  (∀ (house channel humidity : Int) (temperature : Rat),
      oddOnes (msbFirst (frameOfCall house channel humidity temperature)) = false)
  ∧ (∀ (house channel humidity : BitVec 8) (tempQ7 : BitVec 16) (s t : State),
      exec (.frame house channel humidity tempQ7) s = .next t → oddOnes (msbFirst t.frame) = false)

/-- R66: reducing an operand to its port width first changes no field, so the port layer and the abstract layer define the same
frame. -/
def Obligations.PortWidthsAffectNoField : Prop :=
  ∀ (house channel humidity : Int) (temperature : Rat),
    ((houseField (BitVec.ofInt 8 house)).toNat : Int) = absHouse house
    ∧ ((chanField (BitVec.ofInt 8 channel)).toNat : Int) = absChan channel
    ∧ ((humField (BitVec.ofInt 8 humidity)).toNat : Int) = absHum humidity
    ∧ ((tempField (BitVec.ofInt 16 (quantise temperature))).toNat : Int) = absTemp temperature
    ∧ frameOfPorts (BitVec.ofInt 8 house) (BitVec.ofInt 8 channel) (BitVec.ofInt 8 humidity)
        (BitVec.ofInt 16 (quantise temperature)) = frameOfCall house channel humidity temperature

/-- R70: in the no-wrap domain the temperature read back from the field is below the true one by less than 1/128. -/
def Obligations.TemperatureRoundTripErrorBelowOneStep : Prop :=
  ∀ (temperature : Rat) (s t : State), -50 ≤ temperature → temperature < 206 →
    exec (.encTemp (BitVec.ofInt 16 (quantise temperature))) s = .next t →
      0 ≤ temperature - ((t.fTemp.toNat : Rat) - 6400) / 128 ∧ temperature - ((t.fTemp.toNat : Rat) - 6400) / 128 < 1 / 128

/-- R112 and R65: the host's call puts on the ports of the next edge the operands reduced to the port widths with `start = 1`, and a
temperature that is no finite real is refused with nothing presented. -/
def Obligations.HostPresentsReducedOperands : Prop :=
  ∀ (house channel humidity : Int) (s : State),
    presentCall house channel humidity .notFinite s = .refused .temperatureNotFinite
    ∧ ∀ temperature : Rat, ∃ p,
        presentCall house channel humidity (.celsius temperature) s = .next { s with host := p :: s.host }
        ∧ p.rst = false ∧ p.start = true ∧ (p.house.toNat : Int) = house % 256 ∧ (p.channel.toNat : Int) = channel % 256
        ∧ (p.humidity.toNat : Int) = humidity % 256 ∧ (p.tempQ7.toNat : Int) = ⌊temperature * 128⌋ % 65536

/-! ### The Pulse Transmitter's operations -/

/-- R80: START completes: `parityBit` cleared, the line LOW for `T_TRIGGER`, `pulseState` HIGH, nothing else but the spent timer (for it see
`WholeOperationsLeaveTheTimerSpent`). The segment stands at the end of `line`, the record of the waveform (R9, entry 6). That the sequencer
position stays, where R99 moves it, is the model's choice for an operation run alone (entry 23). -/
def Obligations.StartOpensAFrame : Prop :=
  ∀ s : State, ∃ t, exec .start s = .next t
    ∧ t = { s with parityBit := false, pulseState := .high, tx := .low, timer := t.timer,
                   line := s.line ++ [⟨.low, s.cfg.tTrigger⟩] }

/-- R81: SYM0 completes: one `T_LONG` segment at `pulseState`, which is then inverted; `parityBit` and everything else but the timer
unchanged. -/
def Obligations.ZeroSymbolIsOneLongPulse : Prop :=
  ∀ s : State, ∃ t, exec .sym0 s = .next t
    ∧ t = { s with pulseState := s.pulseState.not, tx := s.pulseState, timer := t.timer,
                   line := s.line ++ [⟨s.pulseState, s.cfg.tLong⟩] }

/-- R82: SYM1 completes: two `T_SHORT` segments at opposite levels, `parityBit` inverted; `pulseState` and everything else but the timer
unchanged. -/
def Obligations.OneSymbolIsTwoShortPulses : Prop :=
  ∀ s : State, ∃ t, exec .sym1 s = .next t
    ∧ t = { s with parityBit := !s.parityBit, tx := s.pulseState.not, timer := t.timer,
                   line := s.line ++ [⟨s.pulseState, s.cfg.tShort⟩, ⟨s.pulseState.not, s.cfg.tShort⟩] }

/-- What EMIT of `bits` leaves (R83): the symbols of R102 on the line, in order; `pulseState` as they leave it; the line at its
opposite; `parityBit` inverted once per 1 bit; the timer `timer`; everything else unchanged. -/
def emitted (s : State) (timer : Nat) (bits : List Bool) : State :=
  { s with tx := (syms s.cfg bits s.pulseState).2.not, timer := timer, pulseState := (syms s.cfg bits s.pulseState).2,
           parityBit := s.parityBit ^^ oddOnes bits, line := s.line ++ (syms s.cfg bits s.pulseState).1 }

/-- R85 to R89, and EMIT_PRE beside them: each of the six steps with a fixed source completes, sending its field at its width, most
significant bit first, and changing nothing but the flags, the line and the timer. That the sequencer position stays, where R99 moves it,
is the model's choice for an operation run alone (entry 23). -/
def Obligations.FieldStepsSendTheirBitsMsbFirst : Prop :=
  ∀ s : State,
    (∃ t, exec .emitPre s = .next t ∧ t = emitted s t.timer [true, true, false, false])
    ∧ (∃ t, exec .emitHouse s = .next t ∧ t = emitted s t.timer (msbFirst s.fHouse))
    ∧ (∃ t, exec .emitChan s = .next t ∧ t = emitted s t.timer (msbFirst s.fChan))
    ∧ (∃ t, exec .emitSep s = .next t ∧ t = emitted s t.timer [true, true, false])
    ∧ (∃ t, exec .emitHum s = .next t ∧ t = emitted s t.timer (msbFirst s.fHum))
    ∧ (∃ t, exec .emitTemp s = .next t ∧ t = emitted s t.timer (msbFirst s.fTemp))

/-- R84: after START, EMIT_PRE always emits the same six segments and leaves `pulseState = HIGH`, `parityBit = 0`. -/
def Obligations.PreambleAfterStartIsFixed : Prop :=
  ∀ s : State, ∃ t u,
    exec .start s = .next t ∧ exec .emitPre t = .next u
    ∧ u.line = t.line ++ [⟨.high, s.cfg.tShort⟩, ⟨.low, s.cfg.tShort⟩, ⟨.high, s.cfg.tShort⟩, ⟨.low, s.cfg.tShort⟩,
        ⟨.high, s.cfg.tLong⟩, ⟨.low, s.cfg.tLong⟩]
    ∧ u.pulseState = .high ∧ u.parityBit = false

/-- R91 and R93: EMIT_PAR completes, sending the accumulator as it was when the step began, as a full symbol, and leaves
`parityBit = 0`. -/
def Obligations.ParityStepSendsAndClearsAccumulator : Prop :=
  ∀ s : State, ∃ t, exec .emitPar s = .next t
    ∧ exec (if s.parityBit then .sym1 else .sym0) s = .next t ∧ t.parityBit = false

/-- R96: END completes: with `pulseState = HIGH` a HIGH half-pulse and the LOW hold, with `pulseState = LOW` the hold alone; neither
flag is written and nothing else but the timer changes. That the sequencer position stays, where R99 counts `rep` down, is the model's
choice for an operation run alone (entry 23). -/
def Obligations.EndClosesAFrame : Prop :=
  ∀ s : State, ∃ t, exec .endFrame s = .next t
    ∧ (s.pulseState = .high → t =
        { s with tx := .low, timer := t.timer, line := s.line ++ [⟨.high, s.cfg.tHalf⟩, ⟨.low, s.cfg.tTrigger⟩] })
    ∧ (s.pulseState = .low → t = { s with tx := .low, timer := t.timer, line := s.line ++ [⟨.low, s.cfg.tTrigger⟩] })

/-- Entry 9, the model's choice: a line operation run whole lets its time pass, so the timer is spent when it is over, and REPEAT
leaves the timer alone where `REPEATS = 0`. -/
def Obligations.WholeOperationsLeaveTheTimerSpent : Prop :=
  (∀ (i : Instr) (s : State),
    i ∈ [Instr.sym0, .sym1, .start, .emitPre, .emitHouse, .emitChan, .emitSep, .emitHum, .emitTemp, .emitPar, .endFrame] →
      ∃ t, exec i s = .next t ∧ t.timer = 0)
  ∧ (∀ s : State, ∃ t, exec .repeatFrames s = .next t ∧ t.timer = if s.cfg.repeats = 0 then s.timer else 0)

/-- R12: after START and after each complete SYM0 or SYM1 `tx = not pulseState`; so a symbol that begins there begins with a
transition of the line. -/
def Obligations.LineOpposesPulseStateAtSymbolBoundaries : Prop :=
  (∀ (i : Instr) (s t : State), i ∈ [Instr.start, .sym0, .sym1] → exec i s = .next t → t.tx = t.pulseState.not)
  ∧ (∀ (i : Instr) (s t : State), i ∈ [Instr.sym0, .sym1] → s.tx = s.pulseState.not → exec i s = .next t →
      ∃ g rest, t.line = s.line ++ g :: rest ∧ g.level ≠ s.tx)

/-- R92: the accumulator on entry to EMIT_PAR is the exclusive-or of the 35 bits sent since START, the bit EMIT_PAR sends is PAR, and
the 36 bits sent are those of FRAME. -/
def Obligations.AccumulatorIsParityOfTheThirtyFiveBits : Prop :=
  ∀ s : State, ∃ t u,
    execAll throughTemp s = .next t
    ∧ t.parityBit = oddOnes (msbFirst (0b1100#4 ++ s.fHouse ++ s.fChan ++ 0b110#3 ++ s.fHum ++ s.fTemp))
    ∧ exec .emitPar t = .next u
    ∧ u.line = s.line ++ ⟨.low, s.cfg.tTrigger⟩ :: (syms s.cfg (msbFirst s.latchedFrame) .high).1

/-- R94: in the frame sequence, on entry to END, `pulseState = HIGH` and `tx = LOW`, whatever the latches hold. -/
def Obligations.HighAndLowOnEntryToEnd : Prop :=
  ∀ s : State, ∃ t, execAll throughPar s = .next t ∧ t.pulseState = .high ∧ t.tx = .low

/-- R97 and R98: the nine steps complete, put exactly one frame's waveform on the line, and leave `tx = LOW`, `pulseState = HIGH`,
`parityBit = 0`; latches, frame and the rest but the timer are unchanged. That the sequencer position is unchanged too, where R15 and
R99 advance it and END counts `rep` down, is the model's choice for operations run alone (entry 23). -/
def Obligations.FrameSequenceSendsOneFrame : Prop :=
  ∀ s : State, ∃ t, execAll wholeFrame s = .next t
    ∧ t = { s with tx := .low, pulseState := .high, parityBit := false, timer := t.timer,
                   line := s.line ++ frameWave s.cfg s.latchedFrame }

/-- R100: REPEAT completes, sending the frame of the latches exactly `REPEATS` times; that it leaves the sequencer at START with `rep = 0`,
and drives nothing where `REPEATS = 0`, is the model's reading of it as an operation run whole (entry 23). -/
def Obligations.RepeatSendsTheFrameRepeatsTimes : Prop :=
  ∀ s : State, ∃ t, exec .repeatFrames s = .next t
    ∧ t.line = s.line ++ transmitWave s.cfg s.cfg.repeats s.latchedFrame
    ∧ t.rep = 0 ∧ t.step = .start ∧ t.bitidx = 0 ∧ t.half = false
    ∧ (s.cfg.repeats ≠ 0 → t.tx = .low ∧ t.pulseState = .high ∧ t.parityBit = false)
    ∧ (s.cfg.repeats = 0 → t.tx = s.tx ∧ t.pulseState = s.pulseState ∧ t.parityBit = s.parityBit)
    ∧ t = { s with line := t.line, rep := 0, step := .start, bitidx := 0, half := false, tx := t.tx,
                   pulseState := t.pulseState, parityBit := t.parityBit, timer := t.timer }

/-- The frame of the line operations: SYM0, SYM1, START, the field steps and END leave the latches, the materialised frame, the phase,
the sequencer position, `done`, the configuration and the outside as they were. For the position (which R15 and R99 advance on the clocked
block), the phase, `done` and the outside this is the model's choice for an operation run alone (entries 22 and 23). -/
def Obligations.LineOperationsTouchOnlyTheLineAndFlags : Prop :=
  ∀ (i : Instr) (s t : State),
    i ∈ [Instr.sym0, .sym1, .start, .emitPre, .emitHouse, .emitChan, .emitSep, .emitHum, .emitTemp, .emitPar, .endFrame] →
    exec i s = .next t →
      t = { s with tx := t.tx, pulseState := t.pulseState, parityBit := t.parityBit, timer := t.timer, line := t.line }

/-! ### Waveforms -/

/-- R104: with `z` 0 bits and `o` 1 bits among the 36, both even, one frame is `z + 2*o + 3` segments and lasts
`2*T_TRIGGER + T_HALF + z*T_LONG + 2*o*T_SHORT` microseconds; with the reference values that is 102500 for every operand tuple and
`n * 102500` for `n` frames; the source scenario has 53 segments, `z = 22` and `o = 14`. -/
def Obligations.FrameCountsAndDurations : Prop :=
  (∀ (c : Config) (house channel humidity : Int) (temperature : Rat),
    let f := frameOfCall house channel humidity temperature
    let z := countBits false (msbFirst f)
    let o := countBits true (msbFirst f)
    z + o = 36 ∧ o % 2 = 0 ∧ z % 2 = 0
      ∧ (frameWave c f).length = z + 2 * o + 3
      ∧ duration (frameWave c f) = 2 * c.tTrigger + c.tHalf + z * c.tLong + 2 * o * c.tShort)
  ∧ (∀ (n : Nat) (house channel humidity : Int) (temperature : Rat),
      duration (transmitWave Config.reference n (frameOfCall house channel humidity temperature)) = n * 102500)
  ∧ (frameWave Config.reference (frameOfCall 1 1 59 (47 / 2))).length = 53
  ∧ countBits false (msbFirst (frameOfCall 1 1 59 (47 / 2))) = 22 ∧ countBits true (msbFirst (frameOfCall 1 1 59 (47 / 2))) = 14

/-- R105: inside a frame no two adjacent segments have the same level, so `Merge` changes nothing; at a frame boundary the two LOW holds
merge into one interval of `2 * T_TRIGGER`; the first and the last hold merge with the idle low around them; the first rising edge is the
preamble's first pulse. -/
def Obligations.MergedLowIntervalIsTwiceTrigger : Prop :=
  ∀ (c : Config) (house channel humidity : Int) (temperature : Rat) (idle : Nat),
    let w := frameWave c (frameOfCall house channel humidity temperature)
    merge w = w
    ∧ merge (w ++ w) = w.dropLast ++ ⟨.low, 2 * c.tTrigger⟩ :: w.tail
    ∧ merge (⟨.low, idle⟩ :: w) = ⟨.low, idle + c.tTrigger⟩ :: w.tail
    ∧ merge (w ++ [⟨.low, idle⟩]) = w.dropLast ++ [⟨.low, c.tTrigger + idle⟩]
    ∧ w.take 2 = [⟨.low, c.tTrigger⟩, ⟨.high, c.tShort⟩]

/-! ### Reset -/

/-- R21: the block's fourteen state elements after reset. -/
def Obligations.ResetValuesOfTheBlock : Prop :=
  State.reset.tx = .low ∧ State.reset.phase = .idle ∧ State.reset.done = false ∧ State.reset.pulseState = .high
  ∧ State.reset.parityBit = false ∧ State.reset.fHouse = 0 ∧ State.reset.fChan = 0 ∧ State.reset.fHum = 0
  ∧ State.reset.fTemp = 0 ∧ State.reset.rep = 0 ∧ State.reset.step = .start ∧ State.reset.bitidx = 0
  ∧ State.reset.half = false ∧ State.reset.timer = 0

/-- R150, R151, R133: an edge with `rst = 1` puts every register of the block at its reset value whatever the phase, the timer and the
other inputs are (so a transmission in progress is cut, with no `done`); the configuration and the outside stay. The values of `frame` and `line` are the model's own (entries 6, 7). -/
def Obligations.ResetEdgeOverridesEverything : Prop :=
  ∀ (s : State) (p : Ports) (rest : List Ports), configLegal s.cfg = true → (s.phase = .run ∨ s.micro = []) →
    s.host = p :: rest → p.rst = true →
      step s = .next
        { tx := .low, pulseState := .high, parityBit := false, fHouse := 0, fChan := 0, fHum := 0, fTemp := 0, phase := .idle,
          rep := 0, step := .start, bitidx := 0, half := false, timer := 0, done := false, cfg := s.cfg,
          frame := 0xC03000000#36, line := [], host := rest, micro := s.micro }

/-! ### The TRANSMIT command and the clock -/

/-- R113: TRANSMIT, in `IDLE` with a legal configuration (R5) and operands admitted (all of them, unless the switch of U1 is on),
completes: latches encoded, sequencer at `REPEATS` with START's hold issued, `RUN`, `done = 0`, the line LOW with the timer loaded.
The host's inputs and the configuration stay. -/
def Obligations.TransmitIsAcceptedWhenIdle : Prop :=
  ∀ (house channel humidity : BitVec 8) (tempQ7 : BitVec 16) (s : State), s.phase = .idle → configLegal s.cfg = true →
    admits s.cfg house channel humidity tempQ7 = true → ∃ t,
      exec (.transmit house channel humidity tempQ7) s = .next t
      ∧ t.fHouse = house.extractLsb' 0 4 ∧ (t.fChan.toNat : Int) = ((channel.toNat : Int) - 1) % 4
      ∧ t.fHum = humidity.extractLsb' 0 7 ∧ (t.fTemp.toNat : Int) = (tempQ7.toInt + 6400) % 32768
      ∧ t = { s with fHouse := t.fHouse, fChan := t.fChan, fHum := t.fHum, fTemp := t.fTemp, frame := t.frame,
                     rep := s.cfg.repeats, step := .emitPre, bitidx := 3, half := false, phase := .run, done := false,
                     parityBit := false, pulseState := .high, tx := .low,
                     timer := s.cfg.tTrigger * s.cfg.cyclesPerUs - 1, line := [⟨.low, s.cfg.tTrigger⟩] }

/-- R48: with the switch of U1 off no operand is refused: every TRANSMIT an idle block of legal configuration is given is accepted and
latches the fields of R60 to R63, so the frame it sends is the frame of its operands. -/
def Obligations.NoOperandIsIllegal : Prop :=
  ∀ (house channel humidity : BitVec 8) (tempQ7 : BitVec 16) (s : State), s.phase = .idle → configLegal s.cfg = true →
    s.cfg.validate = false → ∃ t, exec (.transmit house channel humidity tempQ7) s = .next t ∧ t.busy = true
      ∧ t.fHouse.toNat = house.toNat % 16 ∧ (t.fChan.toNat : Int) = ((channel.toNat : Int) - 1) % 4
      ∧ t.fHum.toNat = humidity.toNat % 128 ∧ (t.fTemp.toNat : Int) = (tempQ7.toInt + 6400) % 32768
      ∧ t.latchedFrame = frameOfPorts house channel humidity tempQ7

/-- The switch of R131 and U1, on (where the ranges are read is the model's reading, entry 11): an operand outside its declared range,
house 1 to 15, channel 1 to 4, humidity 0 to 127, temperature 0 to 205 (at the port 0 to 26240), is refused before any line
activity, and an in-range TRANSMIT does what it does with the switch off. -/
def Obligations.ValidationRefusesOnlyOutOfRangeOperands : Prop :=
  ∀ (house channel humidity : BitVec 8) (tempQ7 : BitVec 16) (s : State), s.phase = .idle → configLegal s.cfg = true →
    s.cfg.validate = true →
      (house.toNat < 1 ∨ 15 < house.toNat ∨ channel.toNat < 1 ∨ 4 < channel.toNat ∨ 127 < humidity.toNat ∨ tempQ7.toInt < 0
          ∨ 26240 < tempQ7.toInt →
        exec (.transmit house channel humidity tempQ7) s = .refused .invalidField)
      ∧ (1 ≤ house.toNat → house.toNat ≤ 15 → 1 ≤ channel.toNat → channel.toNat ≤ 4 → humidity.toNat ≤ 127 → 0 ≤ tempQ7.toInt →
          tempQ7.toInt ≤ 26240 → ∃ t u,
        exec (.transmit house channel humidity tempQ7) s = .next t
        ∧ exec (.transmit house channel humidity tempQ7) { s with cfg := { s.cfg with validate := false } } = .next u
        ∧ u = { t with cfg := { t.cfg with validate := false } })

/-- R137: a configuration that breaks R5 is refused: on the clocked block at every edge; for an operation run directly too, where only
`REPEATS = 0` is let through, except by TRANSMIT (entry 12). -/
def Obligations.IllegalConfigurationIsRefused : Prop :=
  ∀ s : State,
    ((s.phase = .run ∨ s.micro = []) →
      (s.cfg.tTrigger = 0 ∨ s.cfg.tShort = 0 ∨ s.cfg.tLong = 0 ∨ s.cfg.tHalf = 0 ∨ s.cfg.repeats = 0 ∨ s.cfg.cyclesPerUs = 0) →
        step s = .refused .illegalConfig)
    ∧ ((s.cfg.tTrigger = 0 ∨ s.cfg.tShort = 0 ∨ s.cfg.tLong = 0 ∨ s.cfg.tHalf = 0 ∨ s.cfg.cyclesPerUs = 0) →
        step s = .refused .illegalConfig)
    ∧ (∀ (p : Ports) (rest : List CodeWord), s.phase = .idle → s.micro = .strobe p :: rest → p.rst = false → p.start = true →
        s.cfg.repeats = 0 → step s = .refused .illegalConfig)

/-- R137: on the clocked block with a legal configuration and the switch of U1 off, every step, from every state and with every input,
answers a next state. -/
def Obligations.CycleRuleIsTotal : Prop :=
  ∀ s : State, configLegal s.cfg = true → s.cfg.validate = false → (s.phase = .run ∨ s.micro = []) → ∃ t, step s = .next t

/-- R114 and R113: at an edge of an idle block with `rst = 0` and `start = 1` the step is TRANSMIT of the sampled ports, and with
`start = 0` it only clears `done`; the host's list moves on either way. The sampled ports are the list's head, and past its end every
port is 0 (entry 4). -/
def Obligations.IdleEdgeRunsTheStrobedTransmit : Prop :=
  ∀ (s : State) (p : Ports), configLegal s.cfg = true → s.phase = .idle → s.micro = [] → s.host.headD Ports.quiet = p →
    p.rst = false →
      (p.start = true → decode (.strobe p) = .ok (.transmit p.house p.channel p.humidity p.tempQ7)
        ∧ step s = exec (.transmit p.house p.channel p.humidity p.tempQ7) { s with done := false, host := s.host.tail })
      ∧ (p.start = false → step s = .next { s with done := false, host := s.host.tail })

/-- R116: in `RUN` with `rst = 0` neither `start` nor the operand ports are read: two edges that differ only in them step alike, so a
request is not accepted, not queued and not remembered. -/
def Obligations.InputsAreIgnoredWhileBusy : Prop :=
  ∀ (s : State) (p q : Ports) (rest : List Ports), s.phase = .run → p.rst = false → q.rst = false →
    step { s with host := p :: rest } = step { s with host := q :: rest }

/-- The model's reading of TRANSMIT presented while busy (entry 18): it does what that edge does without it. -/
def Obligations.TransmitWhileBusyIsTheRunningEdge : Prop :=
  ∀ (house channel humidity : BitVec 8) (tempQ7 : BitVec 16) (s : State), s.phase = .run → configLegal s.cfg = true →
    exec (.transmit house channel humidity tempQ7) s = step { s with host := Ports.quiet :: s.host }

/-- R114, R35: while the timer runs, an edge with `rst = 0` only counts it down: the segment in progress lasts its full duration. So
does an edge past the end of the host's list (entry 4). -/
def Obligations.HoldOnlyCountsDown : Prop :=
  ∀ s : State, configLegal s.cfg = true → s.phase = .run → s.timer ≠ 0 → (s.host.headD Ports.quiet).rst = false →
    step s = .next { s with timer := s.timer - 1, host := s.host.tail }

/-- R114: when the timer has run out, the edge takes the segment `NextSeg` returns: its level on the line, its length in the timer,
its other updates at the same edge. So does an edge past the end of the host's list (entry 4). -/
def Obligations.NextSegmentBeginsWhenTheTimerIsSpent : Prop :=
  ∀ (s u : State) (g : Segment), configLegal s.cfg = true → s.phase = .run → s.timer = 0 →
    (s.host.headD Ports.quiet).rst = false → s.nextSeg = .seg u g →
      step s = .next { u with tx := g.level, timer := g.dur * s.cfg.cyclesPerUs - 1, line := s.line ++ [g],
                              host := s.host.tail }

/-- R99: the arms of `NextSeg`, one by one, for every state in which `rep` is not 0, and `Finish` where it is. -/
def Obligations.NextSegFollowsTheSequencerTable : Prop :=
  ∀ s : State,
    (s.rep = 0 → s.nextSeg = .finish)
    ∧ (s.rep ≠ 0 → s.step = .start → s.nextSeg =
        .seg { s with parityBit := false, pulseState := .high, step := .emitPre, bitidx := 3, half := false }
          ⟨.low, s.cfg.tTrigger⟩)
    ∧ (s.rep ≠ 0 → s.step ≠ .start → s.step ≠ .endFrame → s.half = false → s.srcBit s.step s.bitidx = false → s.nextSeg =
        .seg { s with pulseState := s.pulseState.not }.advance ⟨s.pulseState, s.cfg.tLong⟩)
    ∧ (s.rep ≠ 0 → s.step ≠ .start → s.step ≠ .endFrame → s.half = false → s.srcBit s.step s.bitidx = true → s.nextSeg =
        .seg { s with half := true } ⟨s.pulseState, s.cfg.tShort⟩)
    ∧ (s.rep ≠ 0 → s.step ≠ .start → s.step ≠ .endFrame → s.half = true → s.nextSeg =
        .seg { s with parityBit := !s.parityBit, half := false }.advance ⟨s.pulseState.not, s.cfg.tShort⟩)
    ∧ (s.rep ≠ 0 → s.step = .endFrame → s.half = false → s.pulseState = .high → s.nextSeg =
        .seg { s with half := true } ⟨.high, s.cfg.tHalf⟩)
    ∧ (s.rep ≠ 0 → s.step = .endFrame → (s.half = true ∨ s.pulseState = .low) → s.nextSeg =
        .seg { s with half := false, rep := s.rep - 1, step := .start, bitidx := 0 } ⟨.low, s.cfg.tTrigger⟩)
    ∧ (0 < s.bitidx → s.advance = { s with bitidx := s.bitidx - 1 })
    ∧ (s.bitidx = 0 → s.step ≠ .endFrame → s.advance =
        { s with step := stepNext s.step, bitidx := if s.step = .emitPar then 0 else stepWidth (stepNext s.step) - 1 })

/-- R115 and R101: with no frame left and the last hold spent, the edge takes `Finish`: `IDLE`, `done = 1`, the line untouched. So does an
edge past the end of the host's list (entry 4). -/
def Obligations.FinishGoesIdleWithDone : Prop :=
  ∀ s : State, configLegal s.cfg = true → s.phase = .run → s.timer = 0 → s.rep = 0 →
    (s.host.headD Ports.quiet).rst = false → step s = .next { s with phase := .idle, done := true, host := s.host.tail }

/-- R115, R19: from a state that meets the invariant, `done` is 1 after a step exactly when that step took `Finish`; so it is 1 for
exactly one cycle, the first `IDLE` cycle after a transmission. -/
def Obligations.DoneLastsOneCycle : Prop :=
  ∀ s t : State, s.Inv → step s = .next t →
    (t.done = true ↔ s.phase = .run ∧ s.portsNow.rst = false ∧ s.timer = 0 ∧ s.rep = 0)
      ∧ (t.done = true → t.phase = .idle ∧ t.tx = .low)

/-- R14: on the clocked block a step leaves the latches as they were, unless it is a reset, which clears them, or an acceptance, which
writes all four from the sampled ports. -/
def Obligations.OnlyAcceptanceWritesTheLatches : Prop :=
  ∀ s t : State, (s.phase = .run ∨ s.micro = []) → step s = .next t →
    (t.fHouse = s.fHouse ∧ t.fChan = s.fChan ∧ t.fHum = s.fHum ∧ t.fTemp = s.fTemp)
    ∨ (s.portsNow.rst = true ∧ t.fHouse = 0 ∧ t.fChan = 0 ∧ t.fHum = 0 ∧ t.fTemp = 0)
    ∨ (s.portsNow.rst = false ∧ s.phase = .idle ∧ s.portsNow.start = true
      ∧ t.fHouse.toNat = s.portsNow.house.toNat % 16 ∧ (t.fChan.toNat : Int) = ((s.portsNow.channel.toNat : Int) - 1) % 4
      ∧ t.fHum.toNat = s.portsNow.humidity.toNat % 128
      ∧ (t.fTemp.toNat : Int) = (s.portsNow.tempQ7.toInt + 6400) % 32768)

/-- R17: on the clocked block a step that changes `tx` is a reset, which leaves it LOW, or begins a segment of the new level. -/
def Obligations.OnlySegmentsAndResetWriteTheLine : Prop :=
  ∀ s t : State, (s.phase = .run ∨ s.micro = []) → step s = .next t → t.tx ≠ s.tx →
    (s.portsNow.rst = true ∧ t.tx = .low)
    ∨ (∃ g, g.level = t.tx ∧ t.timer = g.dur * s.cfg.cyclesPerUs - 1 ∧ t.phase = .run ∧ t.line.getLast? = some g)

/-- R5, R20: the configuration is static: no step of any kind changes it. -/
def Obligations.ConfigurationNeverChanges : Prop :=
  ∀ s t : State, step s = .next t → t.cfg = s.cfg

/-- R13: no value survives from one TRANSMIT into the next: two idle blocks of one configuration that accept the same operands agree
afterwards in every field but the outside's, whatever they held before. -/
def Obligations.NothingSurvivesIntoTheNextTransmit : Prop :=
  ∀ (house channel humidity : BitVec 8) (tempQ7 : BitVec 16) (s s' t t' : State), s.phase = .idle → s'.phase = .idle →
    s'.cfg = s.cfg → exec (.transmit house channel humidity tempQ7) s = .next t →
    exec (.transmit house channel humidity tempQ7) s' = .next t' → t' = { t with host := s'.host, micro := s'.micro }

/-! ### Runs -/

/-- R103: from `rep = REPEATS >= 1` at START, the segments that successive calls of `NextSeg` return up to `Finish` are exactly
`Transmit(REPEATS, ...)` of the latched frame. -/
def Obligations.SequencerEmitsExactlyTransmit : Prop :=
  ∀ s : State, s.rep = s.cfg.repeats → s.cfg.repeats ≠ 0 → s.step = .start →
    ∃ t, State.segments (transmitWave s.cfg s.cfg.repeats s.latchedFrame).length s = some t
      ∧ t.line = s.line ++ transmitWave s.cfg s.cfg.repeats s.latchedFrame
      ∧ t.nextSeg = .finish

/-- The two readings of a step of the frame sequence agree: from the beginning of any of the nine steps, the segments `NextSeg` returns
for it leave the flags, the line and the waveform as the whole operation does (R80 to R96 against R99), with the position moved to the
next step. That the whole operation leaves the position to `atNextStep` is the model's choice (entry 23). -/
def Obligations.SequencerStepsAgreeWithOperations : Prop :=
  ∀ s : State, s.AtStepStart → ∃ t, exec (stepInstr s.step) s = .next t
    ∧ State.segments (t.line.length - s.line.length) s = some t.atNextStep

/-- R117, R115, R101: an accepted TRANSMIT, with no reset meanwhile and whatever else the host does, keeps the block busy for exactly
`n = CYCLES_PER_US * (sum of the durations of Transmit(REPEATS, ...))` consecutive cycles; in the cycle after them the block is idle with
`done = 1`, the line LOW, and the registers as R98 and R99 leave them. With the reference durations the sum
is `REPEATS * 102500`. -/
def Obligations.TransmissionCompletesOnTime : Prop :=
  ∀ (s : State) (p : Ports) (rest : List Ports), configLegal s.cfg = true → s.phase = .idle → s.micro = [] →
    s.host = p :: rest → p.rst = false → p.start = true →
    admits s.cfg p.house p.channel p.humidity p.tempQ7 = true → noReset rest →
      let f := frameOfPorts p.house p.channel p.humidity p.tempQ7
      let w := transmitWave s.cfg s.cfg.repeats f
      let n := s.cfg.cyclesPerUs * duration w
      (∀ k, k < n → ∃ t, Core.run Sys2Proof.core (k + 1) s = .next t ∧ t.busy = true)
      ∧ (∃ u, Core.run Sys2Proof.core (n + 1) s = .next u
          ∧ u.busy = false ∧ u.done = true ∧ u.tx = .low ∧ u.rep = 0 ∧ u.step = .start ∧ u.bitidx = 0
          ∧ u.half = false ∧ u.timer = 0 ∧ u.pulseState = .high ∧ u.parityBit = false ∧ u.latchedFrame = f)
      ∧ (s.cfg.tTrigger = 15000 → s.cfg.tShort = 1000 → s.cfg.tLong = 2000 → s.cfg.tHalf = 500 →
          duration w = s.cfg.repeats * 102500)

/-- R118, R117: over the busy cycles of an accepted TRANSMIT with no reset, the values of `tx` are the waveform
`Transmit(REPEATS, ...)` with each segment `(L, D)` expanded to `D * CYCLES_PER_US` cycles of `L`, and the block is busy all
along. -/
def Obligations.LineCarriesTheWaveformCycleByCycle : Prop :=
  ∀ (s : State) (p : Ports) (rest : List Ports), configLegal s.cfg = true → s.phase = .idle → s.micro = [] →
    s.host = p :: rest → p.rst = false → p.start = true →
    admits s.cfg p.house p.channel p.humidity p.tempQ7 = true → noReset rest →
      ∀ k, k < (cycles s.cfg (transmitWave s.cfg s.cfg.repeats (frameOfPorts p.house p.channel p.humidity p.tempQ7))).length →
        ∃ t, Core.run Sys2Proof.core (k + 1) s = .next t ∧ t.busy = true
          ∧ (cycles s.cfg (transmitWave s.cfg s.cfg.repeats
              (frameOfPorts p.house p.channel p.humidity p.tempQ7)))[k]? = some t.tx

/-- The invariant of Safety.lean is kept by every step: the timer inside its width (R18), the line low when idle (R17), and in `RUN` the
sequencer position legal (R15), the accumulator law (R92), `tx = not pulseState` at symbol boundaries (R12), HIGH and LOW on entry to END
(R94), the state at the end of a frame (R98), and the waveform driven so far together with what is left equal to the waveform of the
operands (R103). -/
def Obligations.EveryStepKeepsTheInvariant : Prop :=
  ∀ s t : State, s.Inv → step s = .next t → t.Inv

/-- The invariant holds after reset. -/
def Obligations.ResetMeetsTheInvariant : Prop := State.reset.Inv

/-! ### Encodings -/

/-- Decoding an encoded well-formed instruction gives it back, for all nineteen operations. FRAME and the field operations are well
formed inside the no-wrap domain of R71 (the model's choice, entry 16); TRANSMIT is so with every operand. PARITY's own bit is no
operand (entry 24). The wrapped operands: `DecodeOfEncodeHasTheSameEffect`. -/
def Obligations.DecodeOfEncodeIsTheInstruction : Prop :=
  ∀ i : Instr, i.wellFormed = true → decode (encode i) = .ok i

/-- Words written out from the spec's encodings decode to the operations they stand for: a strobe (R42), the scenario frame (R68), a
field word for each FIELD row (house, humidity and temperature of the scenario frame, channel 4, and a parity bit of 1), the two frame bits
(R44), the nine step codes (R47), the fixed sequence (the REPEAT row). Reading operands from frame bits is R50's inverse and the model's
choice for these words (entry 16), and PARITY's bit is not read (entry 24). -/
def Obligations.SpecWordsDecode : Prop :=
  decode (.strobe { rst := false, start := true, house := 0x01, channel := 0x01, humidity := 0x3B, tempQ7 := 0x0BC0 })
    = .ok (.transmit 1 1 59 3008)
  ∧ decode (.frame36 0b110000010011001110110100100110000000#36) = .ok (.frame 1 1 59 3008)
  ∧ decode (.field36 .house 0b000000010000000000000000000000000000#36) = .ok (.fieldHouse 1)
  ∧ decode (.field36 .chan 0b000000001100000000000000000000000000#36) = .ok (.encChan 4)
  ∧ decode (.field36 .hum 0b000000000000001110110000000000000000#36) = .ok (.fieldHum 59)
  ∧ decode (.field36 .temp 0b000000000000000000000100100110000000#36) = .ok (.encTemp 3008)
  ∧ decode (.field36 .par 0b000000000000000000000000000000000001#36) = .ok .parity
  ∧ decode (.symbol 0b0#1) = .ok .sym0 ∧ decode (.symbol 0b1#1) = .ok .sym1
  ∧ decode (.stepCode 0b0000#4) = .ok .start ∧ decode (.stepCode 0b0001#4) = .ok .emitPre
  ∧ decode (.stepCode 0b0010#4) = .ok .emitHouse ∧ decode (.stepCode 0b0011#4) = .ok .emitChan
  ∧ decode (.stepCode 0b0100#4) = .ok .emitSep ∧ decode (.stepCode 0b0101#4) = .ok .emitHum
  ∧ decode (.stepCode 0b0110#4) = .ok .emitTemp ∧ decode (.stepCode 0b0111#4) = .ok .emitPar
  ∧ decode (.stepCode 0b1000#4) = .ok .endFrame
  ∧ decode (.sequence 0b000000010010001101000101011001111000#36) = .ok .repeatFrames

/-- The step codes `1001` to `1111` are refused by name, decoded and stepped (R47, U15). -/
def Obligations.ReservedStepCodesAreRefused : Prop :=
  ∀ (code : BitVec 4) (s : State), 9 ≤ code.toNat → timingLegal s.cfg = true →
    decode (.stepCode code) = .error (.reservedStepCode code)
    ∧ step (s.place (.stepCode code)) = .refused (.undecodable (.reservedStepCode code))

/-- A frame word is read as FRAME exactly where R50 calls the frame well formed, constants in place and even parity; the operands read are
R50's inverse; and it is read as nothing else. -/
def Obligations.OnlyWellFormedFramesDecode : Prop :=
  ∀ w : BitVec 36,
    ((∃ h c u t, decode (.frame36 w) = .ok (.frame h c u t)) ↔
      (w.extractLsb' 32 4 = 0b1100#4 ∧ w.extractLsb' 23 3 = 0b110#3 ∧ oddOnes (msbFirst w) = false))
    ∧ (∀ (h c u : BitVec 8) (t : BitVec 16), decode (.frame36 w) = .ok (.frame h c u t) →
        h.toNat = (w.extractLsb' 28 4).toNat ∧ c.toNat = (w.extractLsb' 26 2).toNat + 1
        ∧ u.toNat = (w.extractLsb' 16 7).toNat ∧ t.toInt = ((w.extractLsb' 1 15).toNat : Int) - 6400)
    ∧ (∀ i : Instr, decode (.frame36 w) = .ok i → ∃ h c u t, i = .frame h c u t)

/-- A step of an idle block whose first pending word decodes to `i` is `exec i`, the word removed (the model's own way of running an
operation directly, entries 5 and 8; a TRANSMIT word is so an acceptance with no edge, entry 27); no duration and no `CYCLES_PER_US` may
be 0 (R5). -/
def Obligations.DirectStepRunsTheDecodedOperation : Prop :=
  ∀ (s : State) (cw : CodeWord) (rest : List CodeWord) (i : Instr), s.phase = .idle → s.micro = cw :: rest →
    timingLegal s.cfg = true → decode cw = .ok i → step s = exec i { s with micro := rest }

/-- A word placed by `withFetchWord` that `decodeTableWord` reads as `i` is what the very next step runs (entry 8). -/
def Obligations.PlacedTableWordRunsNext : Prop :=
  ∀ (s : State) (nbits w : Nat) (i : Instr), timingLegal s.cfg = true → decodeTableWord nbits w = some i →
    step (s.withFetchWord nbits w) = exec i { s with phase := .idle }

/-- Every instruction with every operand, the wrapped ones too (R48, R71), encodes to a word that decodes to a well-formed instruction
with the same effect in every state; a well-formed instruction decodes to itself. That a word names an operand inside the no-wrap
domain is the model's choice (entry 16). -/
def Obligations.DecodeOfEncodeHasTheSameEffect : Prop :=
  ∀ i : Instr, ∃ j, decode (encode i) = .ok j ∧ j.wellFormed = true ∧ (i.wellFormed = true → j = i)
    ∧ ∀ s : State, exec j s = exec i s
end

