-- ==== Sys2Proof/Laws/Bits.lean ====
section
/-! SUPPORT. Bit lists in transmission order, exclusive-or and counting. -/

namespace Sys2Proof.Machine

@[simp] theorem bitsBelow_length {w : Nat} (v : BitVec w) (n : Nat) : (bitsBelow v n).length = n := by
  induction n with
  | zero => rfl
  | succ n ih => simp [bitsBelow, ih]

@[simp] theorem bitsMsb_length {w : Nat} (v : BitVec w) : (bitsMsb v).length = w := bitsBelow_length v w

/-- Dropping the bits already sent of a field leaves the bits below the index. -/
theorem bitsBelow_drop {w : Nat} (v : BitVec w) (n k : Nat) (h : k ≤ n) : (bitsBelow v n).drop (n - k) = bitsBelow v k := by
  induction n with
  | zero => obtain rfl : k = 0 := by omega
            rfl
  | succ n ih =>
    rcases Nat.lt_or_ge k (n + 1) with hk | hk
    · rw [show n + 1 - k = (n - k) + 1 by omega]
      simpa [bitsBelow] using ih (by omega)
    · obtain rfl : k = n + 1 := by omega
      simp

theorem bitsBelow_getElem? {w : Nat} (v : BitVec w) (n k : Nat) (h : k < n) :
    (bitsBelow v n)[k]? = some (v.getLsbD (n - 1 - k)) := by
  induction n generalizing k with
  | zero => omega
  | succ n ih =>
    cases k with
    | zero => simp [bitsBelow]
    | succ k => simpa [bitsBelow, show n - (k + 1) = n - 1 - k by omega] using ih k (by omega)

/-- A field's bits in transmission order are `v[w-1], ..., v[0]`. -/
theorem bitsMsb_eq_msbFirst {w : Nat} (v : BitVec w) : bitsMsb v = msbFirst v := by
  apply List.ext_getElem?
  intro k
  rcases Nat.lt_or_ge k w with h | h
  · rw [show (bitsMsb v)[k]? = some (v.getLsbD (w - 1 - k)) from bitsBelow_getElem? v w k h]
    simp [msbFirst, h]
  · simp [msbFirst, h]

/-- Concatenation puts the left operand earlier on the line (R8). -/
theorem bitsMsb_append {a b : Nat} (x : BitVec a) (y : BitVec b) : bitsMsb (x ++ y) = bitsMsb x ++ bitsMsb y := by
  apply List.ext_getElem?
  intro k
  rcases Nat.lt_or_ge k a with h | h
  · rw [List.getElem?_append_left (by simpa using h)]
    unfold bitsMsb
    rw [bitsBelow_getElem? _ _ _ (by omega), bitsBelow_getElem? _ _ _ h, BitVec.getLsbD_append]
    simp [show ¬ a + b - 1 - k < b by omega, show a + b - 1 - k - b = a - 1 - k by omega]
  · rw [List.getElem?_append_right (by simpa using h), bitsMsb_length]
    rcases Nat.lt_or_ge k (a + b) with h' | h'
    · unfold bitsMsb
      rw [bitsBelow_getElem? _ _ _ h', bitsBelow_getElem? _ _ _ (by omega), BitVec.getLsbD_append]
      rw [show a + b - 1 - k = b - 1 - (k - a) by omega, if_pos (by omega)]
    · rw [List.getElem?_eq_none (by simpa using h'), List.getElem?_eq_none (by simp; omega)]

@[simp] theorem bitsMsb_ofBool (b : Bool) : bitsMsb (BitVec.ofBool b) = [b] := by cases b <;> rfl

@[simp] theorem xorBits_append (a b : List Bool) : xorBits (a ++ b) = (xorBits a ^^ xorBits b) := by
  induction a with
  | nil => simp [xorBits]
  | cons x xs ih => simp [xorBits, ih]

@[simp] theorem countBits_append (b : Bool) (x y : List Bool) : countBits b (x ++ y) = countBits b x + countBits b y := by
  induction x with
  | nil => simp [countBits]
  | cons a as ih => simp [countBits, ih]; omega

theorem countBits_total (l : List Bool) : countBits false l + countBits true l = l.length := by
  induction l with
  | nil => rfl
  | cons a as ih => cases a <;> simp [countBits] <;> omega

/-- The exclusive-or is 1 exactly when the number of 1 bits is odd (R67). -/
theorem xorBits_eq_oddOnes (l : List Bool) : xorBits l = oddOnes l := by
  induction l with
  | nil => rfl
  | cons a as ih =>
    simp only [xorBits, ih, oddOnes, countBits]
    rcases Nat.mod_two_eq_zero_or_one (countBits true as) with h | h <;> cases a <;> simp [h, Nat.add_mod]

/-- The 36 bits of a frame are its 35 data bits and their parity (R68). -/
theorem bitsMsb_frameOfFields (h : BitVec 4) (c : BitVec 2) (u : BitVec 7) (t : BitVec 15) :
    bitsMsb (frameOfFields h c u t) = bitsMsb (dataBits h c u t) ++ [xorBits (bitsMsb (dataBits h c u t))] := by
  unfold frameOfFields
  rw [bitsMsb_append, bitsMsb_ofBool]
  rfl

/-- The 35 data bits are the seven-field sequence without its parity (R32, R40, R41). -/
theorem bitsMsb_dataBits (h : BitVec 4) (c : BitVec 2) (u : BitVec 7) (t : BitVec 15) :
    bitsMsb (dataBits h c u t) =
      bitsMsb 0b1100#4 ++ bitsMsb h ++ bitsMsb c ++ bitsMsb 0b110#3 ++ bitsMsb u ++ bitsMsb t := by
  unfold dataBits
  simp only [bitsMsb_append]

/-- XOR of the 36 bits of any frame the encoder makes is 0 (R69). -/
theorem xorBits_frameOfFields (h : BitVec 4) (c : BitVec 2) (u : BitVec 7) (t : BitVec 15) :
    xorBits (bitsMsb (frameOfFields h c u t)) = false := by
  simp [bitsMsb_frameOfFields, xorBits]

end Sys2Proof.Machine
end

