-- ==== Sys2Proof/Laws/Encoder.lean ====
section
/-! SUPPORT. The Frame Encoder's pure functions: what each field is as a number (R60 to R63), which bit of a frame is which (R40,
R68), and what putting a field into a frame does. -/

namespace Sys2Proof.Machine

/-- A bit vector made from an integer holds it modulo the width: every reduction of R72. -/
theorem toNat_ofInt_emod (w : Nat) (x : Int) : ((BitVec.ofInt w x).toNat : Int) = x % 2 ^ w := by
  rw [BitVec.toNat_ofInt]
  have : (0 : Int) < (2 ^ w : Nat) := by exact_mod_cast Nat.two_pow_pos w
  rw [Int.toNat_of_nonneg (Int.emod_nonneg _ (by omega))]
  push_cast
  rfl

theorem houseField_toNat (h : BitVec 8) : (houseField h).toNat = h.toNat % 16 := by simp [houseField]

theorem humField_toNat (u : BitVec 8) : (humField u).toNat = u.toNat % 128 := by simp [humField]

theorem chanField_toNat (c : BitVec 8) : ((chanField c).toNat : Int) = ((c.toNat : Int) - 1) % 4 := by
  rw [chanField, toNat_ofInt_emod]
  rfl

theorem tempField_toNat (q : BitVec 16) : ((tempField q).toNat : Int) = (q.toInt + 6400) % 32768 := by
  rw [tempField, toNat_ofInt_emod]
  rfl

/-- Reducing `q` to the port first changes no temperature field (R66). -/
theorem tempField_ofInt (q : Int) : ((tempField (BitVec.ofInt 16 q)).toNat : Int) = (q + 6400) % 32768 := by
  rw [tempField_toNat, BitVec.toInt_ofInt]
  have h : (q.bmod (2 ^ 16)) % 32768 = q % 32768 := by
    simp only [Int.bmod]
    split <;> omega
  omega

/-- A field read back as an operand (R50): no wrap, since a 15-bit value less 6400 fits 16 bits. -/
theorem tempOfField_toInt (f : BitVec 15) : (tempOfField f).toInt = (f.toNat : Int) - 6400 := by
  have hf := f.isLt
  have e : (f.setWidth 16).toInt = (f.toNat : Int) := by
    rw [BitVec.toInt_eq_toNat_cond]
    simp
    omega
  have e' : (6400#16).toInt = 6400 := by decide
  rw [tempOfField, BitVec.toInt_sub, e, e', Int.bmod]
  split <;> omega

/-- Bit `i` of a frame: the parity, or a data bit (R68). -/
theorem frameOfFields_getLsbD (h : BitVec 4) (c : BitVec 2) (u : BitVec 7) (t : BitVec 15) (i : Nat) :
    (frameOfFields h c u t).getLsbD i =
      if i = 0 then parityOf (dataBits h c u t) else (dataBits h c u t).getLsbD (i - 1) := by
  unfold frameOfFields
  rw [BitVec.getLsbD_append]
  by_cases hi : i = 0
  · subst hi; simp
  · simp [hi, show ¬ i < 1 by omega]

/-- Bit `i` of the 35 data bits: which field it belongs to (R40). -/
theorem dataBits_getLsbD (h : BitVec 4) (c : BitVec 2) (u : BitVec 7) (t : BitVec 15) (i : Nat) :
    (dataBits h c u t).getLsbD i =
      if i < 15 then t.getLsbD i else if i < 22 then u.getLsbD (i - 15) else if i < 25 then (0b110#3).getLsbD (i - 22)
      else if i < 27 then c.getLsbD (i - 25) else if i < 31 then h.getLsbD (i - 27) else (0b1100#4).getLsbD (i - 31) := by
  unfold dataBits
  simp only [BitVec.getLsbD_append]
  split_ifs <;> first | rfl | omega

/-- A field put into a frame: its bits there, every other bit kept. -/
theorem putField_puts {w : Nat} (lo : Nat) (v : BitVec w) (old : BitVec 36) (h : lo + w ≤ 36) :
    PutsBits lo v old (putField old lo v) := by
  intro i
  unfold putField
  simp only [BitVec.getLsbD_or, BitVec.getLsbD_and, BitVec.getLsbD_not, BitVec.getLsbD_shiftLeft, BitVec.getLsbD_setWidth,
    BitVec.getLsbD_allOnes]
  by_cases h1 : lo ≤ i ∧ i < lo + w
  · simp [h1.1, h1.2, show i < 36 by omega, show ¬ i < lo by omega, show i - lo < w by omega, show i - lo < 36 by omega]
  · rw [if_neg h1]
    by_cases a : i < 36
    · by_cases b : i < lo
      · simp [a, b]
      · simp [a, b, show ¬ i - lo < w by omega, BitVec.getLsbD_of_ge v (i - lo) (by omega)]
    · simp [a, BitVec.getLsbD_of_ge old i (by omega)]

/-- A field written into its place of an empty word is read back from it. -/
theorem extract_shifted {w : Nat} (f : BitVec w) (lo : Nat) (h : lo + w ≤ 36) :
    (f.setWidth 36 <<< lo : BitVec 36).extractLsb' lo w = f := by
  apply BitVec.eq_of_getLsbD_eq
  intro i hi
  simp [hi, show lo + i < 36 by omega]

/-- A field written into its place of an empty word leaves every bit outside that place 0. -/
theorem shifted_getLsbD {w : Nat} (f : BitVec w) (lo i : Nat) (h : ¬ (lo ≤ i ∧ i < lo + w)) :
    (f.setWidth 36 <<< lo : BitVec 36).getLsbD i = false := by
  simp only [BitVec.getLsbD_shiftLeft, BitVec.getLsbD_setWidth]
  by_cases b : i < lo
  · simp [b]
  · simp [BitVec.getLsbD_of_ge f (i - lo) (by omega)]

/-- Where each field of a frame is read back from (R40, R50). -/
theorem frameHouse_frameOfFields (h : BitVec 4) (c : BitVec 2) (u : BitVec 7) (t : BitVec 15) :
    frameHouse (frameOfFields h c u t) = h := by
  apply BitVec.eq_of_getLsbD_eq
  intro i hi
  rw [frameHouse, BitVec.getLsbD_extractLsb', frameOfFields_getLsbD, if_neg (by omega), dataBits_getLsbD, if_neg (by omega),
    if_neg (by omega), if_neg (by omega), if_neg (by omega), if_pos (by omega), show 28 + i - 1 - 27 = i by omega]
  simp [hi]

theorem frameChan_frameOfFields (h : BitVec 4) (c : BitVec 2) (u : BitVec 7) (t : BitVec 15) :
    frameChan (frameOfFields h c u t) = c := by
  apply BitVec.eq_of_getLsbD_eq
  intro i hi
  rw [frameChan, BitVec.getLsbD_extractLsb', frameOfFields_getLsbD, if_neg (by omega), dataBits_getLsbD, if_neg (by omega),
    if_neg (by omega), if_neg (by omega), if_pos (by omega), show 26 + i - 1 - 25 = i by omega]
  simp [hi]

theorem frameHum_frameOfFields (h : BitVec 4) (c : BitVec 2) (u : BitVec 7) (t : BitVec 15) :
    frameHum (frameOfFields h c u t) = u := by
  apply BitVec.eq_of_getLsbD_eq
  intro i hi
  rw [frameHum, BitVec.getLsbD_extractLsb', frameOfFields_getLsbD, if_neg (by omega), dataBits_getLsbD, if_neg (by omega),
    if_pos (by omega), show 16 + i - 1 - 15 = i by omega]
  simp [hi]

theorem frameTemp_frameOfFields (h : BitVec 4) (c : BitVec 2) (u : BitVec 7) (t : BitVec 15) :
    frameTemp (frameOfFields h c u t) = t := by
  apply BitVec.eq_of_getLsbD_eq
  intro i hi
  rw [frameTemp, BitVec.getLsbD_extractLsb', frameOfFields_getLsbD, if_neg (by omega), dataBits_getLsbD, if_pos (by omega),
    show 1 + i - 1 = i by omega]
  simp [hi]

/-- The operand read back from a field encodes to that field (R50 after R60 to R63). -/
theorem houseField_houseOfField (f : BitVec 4) : houseField (houseOfField f) = f := by revert f; decide

theorem chanField_channelOfField (f : BitVec 2) : chanField (channelOfField f) = f := by revert f; decide

theorem humField_humidityOfField (f : BitVec 7) : humField (humidityOfField f) = f := by revert f; decide

theorem tempField_tempOfField (f : BitVec 15) : tempField (tempOfField f) = f := by
  have e := tempField_toNat (tempOfField f)
  rw [tempOfField_toInt] at e
  apply BitVec.eq_of_toNat_eq
  have hf := f.isLt
  omega

/-- What the switch of R131 admits, as numbers. -/
theorem operandsInRange_iff (h c u : BitVec 8) (t : BitVec 16) : operandsInRange h c u t = true ↔
    (1 ≤ h.toNat ∧ h.toNat ≤ 15) ∧ (1 ≤ c.toNat ∧ c.toNat ≤ 4) ∧ u.toNat ≤ 127 ∧ 0 ≤ t.toInt ∧ t.toInt ≤ 26240 := by
  simp [operandsInRange, and_assoc]

/-- The constant bits of every frame stand where R40 puts them. -/
theorem frameOfFields_constants (h : BitVec 4) (c : BitVec 2) (u : BitVec 7) (t : BitVec 15) :
    frameOfFields h c u t &&& 0xF03800000#36 = constantFrame := by
  apply BitVec.eq_of_getLsbD_eq
  intro i hi
  rw [BitVec.getLsbD_and, frameOfFields_getLsbD, dataBits_getLsbD, constantFrame]
  interval_cases i <;> simp

end Sys2Proof.Machine
end

