-- ==== Sys2Proof/Laws/State.lean ====
section
/-! SUPPORT. One lemma per field of State for each named update, so that no later proof unfolds a record update. -/

namespace Sys2Proof.Machine


/-! ### clearParity -/

@[simp] theorem State.clearParity_tx (s : State) : (s.clearParity).tx = s.tx := rfl
@[simp] theorem State.clearParity_pulseState (s : State) : (s.clearParity).pulseState = s.pulseState := rfl
@[simp] theorem State.clearParity_parityBit (s : State) : (s.clearParity).parityBit = false := rfl
@[simp] theorem State.clearParity_fHouse (s : State) : (s.clearParity).fHouse = s.fHouse := rfl
@[simp] theorem State.clearParity_fChan (s : State) : (s.clearParity).fChan = s.fChan := rfl
@[simp] theorem State.clearParity_fHum (s : State) : (s.clearParity).fHum = s.fHum := rfl
@[simp] theorem State.clearParity_fTemp (s : State) : (s.clearParity).fTemp = s.fTemp := rfl
@[simp] theorem State.clearParity_phase (s : State) : (s.clearParity).phase = s.phase := rfl
@[simp] theorem State.clearParity_rep (s : State) : (s.clearParity).rep = s.rep := rfl
@[simp] theorem State.clearParity_step (s : State) : (s.clearParity).step = s.step := rfl
@[simp] theorem State.clearParity_bitidx (s : State) : (s.clearParity).bitidx = s.bitidx := rfl
@[simp] theorem State.clearParity_half (s : State) : (s.clearParity).half = s.half := rfl
@[simp] theorem State.clearParity_timer (s : State) : (s.clearParity).timer = s.timer := rfl
@[simp] theorem State.clearParity_done (s : State) : (s.clearParity).done = s.done := rfl
@[simp] theorem State.clearParity_cfg (s : State) : (s.clearParity).cfg = s.cfg := rfl
@[simp] theorem State.clearParity_frame (s : State) : (s.clearParity).frame = s.frame := rfl
@[simp] theorem State.clearParity_line (s : State) : (s.clearParity).line = s.line := rfl
@[simp] theorem State.clearParity_host (s : State) : (s.clearParity).host = s.host := rfl
@[simp] theorem State.clearParity_micro (s : State) : (s.clearParity).micro = s.micro := rfl

/-! ### setPulseHigh -/

@[simp] theorem State.setPulseHigh_tx (s : State) : (s.setPulseHigh).tx = s.tx := rfl
@[simp] theorem State.setPulseHigh_pulseState (s : State) : (s.setPulseHigh).pulseState = .high := rfl
@[simp] theorem State.setPulseHigh_parityBit (s : State) : (s.setPulseHigh).parityBit = s.parityBit := rfl
@[simp] theorem State.setPulseHigh_fHouse (s : State) : (s.setPulseHigh).fHouse = s.fHouse := rfl
@[simp] theorem State.setPulseHigh_fChan (s : State) : (s.setPulseHigh).fChan = s.fChan := rfl
@[simp] theorem State.setPulseHigh_fHum (s : State) : (s.setPulseHigh).fHum = s.fHum := rfl
@[simp] theorem State.setPulseHigh_fTemp (s : State) : (s.setPulseHigh).fTemp = s.fTemp := rfl
@[simp] theorem State.setPulseHigh_phase (s : State) : (s.setPulseHigh).phase = s.phase := rfl
@[simp] theorem State.setPulseHigh_rep (s : State) : (s.setPulseHigh).rep = s.rep := rfl
@[simp] theorem State.setPulseHigh_step (s : State) : (s.setPulseHigh).step = s.step := rfl
@[simp] theorem State.setPulseHigh_bitidx (s : State) : (s.setPulseHigh).bitidx = s.bitidx := rfl
@[simp] theorem State.setPulseHigh_half (s : State) : (s.setPulseHigh).half = s.half := rfl
@[simp] theorem State.setPulseHigh_timer (s : State) : (s.setPulseHigh).timer = s.timer := rfl
@[simp] theorem State.setPulseHigh_done (s : State) : (s.setPulseHigh).done = s.done := rfl
@[simp] theorem State.setPulseHigh_cfg (s : State) : (s.setPulseHigh).cfg = s.cfg := rfl
@[simp] theorem State.setPulseHigh_frame (s : State) : (s.setPulseHigh).frame = s.frame := rfl
@[simp] theorem State.setPulseHigh_line (s : State) : (s.setPulseHigh).line = s.line := rfl
@[simp] theorem State.setPulseHigh_host (s : State) : (s.setPulseHigh).host = s.host := rfl
@[simp] theorem State.setPulseHigh_micro (s : State) : (s.setPulseHigh).micro = s.micro := rfl

/-! ### invertPulse -/

@[simp] theorem State.invertPulse_tx (s : State) : (s.invertPulse).tx = s.tx := rfl
@[simp] theorem State.invertPulse_pulseState (s : State) : (s.invertPulse).pulseState = s.pulseState.not := rfl
@[simp] theorem State.invertPulse_parityBit (s : State) : (s.invertPulse).parityBit = s.parityBit := rfl
@[simp] theorem State.invertPulse_fHouse (s : State) : (s.invertPulse).fHouse = s.fHouse := rfl
@[simp] theorem State.invertPulse_fChan (s : State) : (s.invertPulse).fChan = s.fChan := rfl
@[simp] theorem State.invertPulse_fHum (s : State) : (s.invertPulse).fHum = s.fHum := rfl
@[simp] theorem State.invertPulse_fTemp (s : State) : (s.invertPulse).fTemp = s.fTemp := rfl
@[simp] theorem State.invertPulse_phase (s : State) : (s.invertPulse).phase = s.phase := rfl
@[simp] theorem State.invertPulse_rep (s : State) : (s.invertPulse).rep = s.rep := rfl
@[simp] theorem State.invertPulse_step (s : State) : (s.invertPulse).step = s.step := rfl
@[simp] theorem State.invertPulse_bitidx (s : State) : (s.invertPulse).bitidx = s.bitidx := rfl
@[simp] theorem State.invertPulse_half (s : State) : (s.invertPulse).half = s.half := rfl
@[simp] theorem State.invertPulse_timer (s : State) : (s.invertPulse).timer = s.timer := rfl
@[simp] theorem State.invertPulse_done (s : State) : (s.invertPulse).done = s.done := rfl
@[simp] theorem State.invertPulse_cfg (s : State) : (s.invertPulse).cfg = s.cfg := rfl
@[simp] theorem State.invertPulse_frame (s : State) : (s.invertPulse).frame = s.frame := rfl
@[simp] theorem State.invertPulse_line (s : State) : (s.invertPulse).line = s.line := rfl
@[simp] theorem State.invertPulse_host (s : State) : (s.invertPulse).host = s.host := rfl
@[simp] theorem State.invertPulse_micro (s : State) : (s.invertPulse).micro = s.micro := rfl

/-! ### invertParity -/

@[simp] theorem State.invertParity_tx (s : State) : (s.invertParity).tx = s.tx := rfl
@[simp] theorem State.invertParity_pulseState (s : State) : (s.invertParity).pulseState = s.pulseState := rfl
@[simp] theorem State.invertParity_parityBit (s : State) : (s.invertParity).parityBit = !s.parityBit := rfl
@[simp] theorem State.invertParity_fHouse (s : State) : (s.invertParity).fHouse = s.fHouse := rfl
@[simp] theorem State.invertParity_fChan (s : State) : (s.invertParity).fChan = s.fChan := rfl
@[simp] theorem State.invertParity_fHum (s : State) : (s.invertParity).fHum = s.fHum := rfl
@[simp] theorem State.invertParity_fTemp (s : State) : (s.invertParity).fTemp = s.fTemp := rfl
@[simp] theorem State.invertParity_phase (s : State) : (s.invertParity).phase = s.phase := rfl
@[simp] theorem State.invertParity_rep (s : State) : (s.invertParity).rep = s.rep := rfl
@[simp] theorem State.invertParity_step (s : State) : (s.invertParity).step = s.step := rfl
@[simp] theorem State.invertParity_bitidx (s : State) : (s.invertParity).bitidx = s.bitidx := rfl
@[simp] theorem State.invertParity_half (s : State) : (s.invertParity).half = s.half := rfl
@[simp] theorem State.invertParity_timer (s : State) : (s.invertParity).timer = s.timer := rfl
@[simp] theorem State.invertParity_done (s : State) : (s.invertParity).done = s.done := rfl
@[simp] theorem State.invertParity_cfg (s : State) : (s.invertParity).cfg = s.cfg := rfl
@[simp] theorem State.invertParity_frame (s : State) : (s.invertParity).frame = s.frame := rfl
@[simp] theorem State.invertParity_line (s : State) : (s.invertParity).line = s.line := rfl
@[simp] theorem State.invertParity_host (s : State) : (s.invertParity).host = s.host := rfl
@[simp] theorem State.invertParity_micro (s : State) : (s.invertParity).micro = s.micro := rfl

/-! ### issue -/

@[simp] theorem State.issue_tx (s : State) (g : Segment) : (s.issue g).tx = g.level := rfl
@[simp] theorem State.issue_pulseState (s : State) (g : Segment) : (s.issue g).pulseState = s.pulseState := rfl
@[simp] theorem State.issue_parityBit (s : State) (g : Segment) : (s.issue g).parityBit = s.parityBit := rfl
@[simp] theorem State.issue_fHouse (s : State) (g : Segment) : (s.issue g).fHouse = s.fHouse := rfl
@[simp] theorem State.issue_fChan (s : State) (g : Segment) : (s.issue g).fChan = s.fChan := rfl
@[simp] theorem State.issue_fHum (s : State) (g : Segment) : (s.issue g).fHum = s.fHum := rfl
@[simp] theorem State.issue_fTemp (s : State) (g : Segment) : (s.issue g).fTemp = s.fTemp := rfl
@[simp] theorem State.issue_phase (s : State) (g : Segment) : (s.issue g).phase = s.phase := rfl
@[simp] theorem State.issue_rep (s : State) (g : Segment) : (s.issue g).rep = s.rep := rfl
@[simp] theorem State.issue_step (s : State) (g : Segment) : (s.issue g).step = s.step := rfl
@[simp] theorem State.issue_bitidx (s : State) (g : Segment) : (s.issue g).bitidx = s.bitidx := rfl
@[simp] theorem State.issue_half (s : State) (g : Segment) : (s.issue g).half = s.half := rfl
@[simp] theorem State.issue_timer (s : State) (g : Segment) : (s.issue g).timer = g.dur * s.cfg.cyclesPerUs - 1 := rfl
@[simp] theorem State.issue_done (s : State) (g : Segment) : (s.issue g).done = s.done := rfl
@[simp] theorem State.issue_cfg (s : State) (g : Segment) : (s.issue g).cfg = s.cfg := rfl
@[simp] theorem State.issue_frame (s : State) (g : Segment) : (s.issue g).frame = s.frame := rfl
@[simp] theorem State.issue_line (s : State) (g : Segment) : (s.issue g).line = s.line ++ [g] := rfl
@[simp] theorem State.issue_host (s : State) (g : Segment) : (s.issue g).host = s.host := rfl
@[simp] theorem State.issue_micro (s : State) (g : Segment) : (s.issue g).micro = s.micro := rfl

/-! ### elapse -/

@[simp] theorem State.elapse_tx (s : State) : (s.elapse).tx = s.tx := rfl
@[simp] theorem State.elapse_pulseState (s : State) : (s.elapse).pulseState = s.pulseState := rfl
@[simp] theorem State.elapse_parityBit (s : State) : (s.elapse).parityBit = s.parityBit := rfl
@[simp] theorem State.elapse_fHouse (s : State) : (s.elapse).fHouse = s.fHouse := rfl
@[simp] theorem State.elapse_fChan (s : State) : (s.elapse).fChan = s.fChan := rfl
@[simp] theorem State.elapse_fHum (s : State) : (s.elapse).fHum = s.fHum := rfl
@[simp] theorem State.elapse_fTemp (s : State) : (s.elapse).fTemp = s.fTemp := rfl
@[simp] theorem State.elapse_phase (s : State) : (s.elapse).phase = s.phase := rfl
@[simp] theorem State.elapse_rep (s : State) : (s.elapse).rep = s.rep := rfl
@[simp] theorem State.elapse_step (s : State) : (s.elapse).step = s.step := rfl
@[simp] theorem State.elapse_bitidx (s : State) : (s.elapse).bitidx = s.bitidx := rfl
@[simp] theorem State.elapse_half (s : State) : (s.elapse).half = s.half := rfl
@[simp] theorem State.elapse_timer (s : State) : (s.elapse).timer = 0 := rfl
@[simp] theorem State.elapse_done (s : State) : (s.elapse).done = s.done := rfl
@[simp] theorem State.elapse_cfg (s : State) : (s.elapse).cfg = s.cfg := rfl
@[simp] theorem State.elapse_frame (s : State) : (s.elapse).frame = s.frame := rfl
@[simp] theorem State.elapse_line (s : State) : (s.elapse).line = s.line := rfl
@[simp] theorem State.elapse_host (s : State) : (s.elapse).host = s.host := rfl
@[simp] theorem State.elapse_micro (s : State) : (s.elapse).micro = s.micro := rfl

/-! ### drive -/

@[simp] theorem State.drive_tx (s : State) (l : Level) (d : Nat) : (s.drive l d).tx = l := rfl
@[simp] theorem State.drive_pulseState (s : State) (l : Level) (d : Nat) : (s.drive l d).pulseState = s.pulseState := rfl
@[simp] theorem State.drive_parityBit (s : State) (l : Level) (d : Nat) : (s.drive l d).parityBit = s.parityBit := rfl
@[simp] theorem State.drive_fHouse (s : State) (l : Level) (d : Nat) : (s.drive l d).fHouse = s.fHouse := rfl
@[simp] theorem State.drive_fChan (s : State) (l : Level) (d : Nat) : (s.drive l d).fChan = s.fChan := rfl
@[simp] theorem State.drive_fHum (s : State) (l : Level) (d : Nat) : (s.drive l d).fHum = s.fHum := rfl
@[simp] theorem State.drive_fTemp (s : State) (l : Level) (d : Nat) : (s.drive l d).fTemp = s.fTemp := rfl
@[simp] theorem State.drive_phase (s : State) (l : Level) (d : Nat) : (s.drive l d).phase = s.phase := rfl
@[simp] theorem State.drive_rep (s : State) (l : Level) (d : Nat) : (s.drive l d).rep = s.rep := rfl
@[simp] theorem State.drive_step (s : State) (l : Level) (d : Nat) : (s.drive l d).step = s.step := rfl
@[simp] theorem State.drive_bitidx (s : State) (l : Level) (d : Nat) : (s.drive l d).bitidx = s.bitidx := rfl
@[simp] theorem State.drive_half (s : State) (l : Level) (d : Nat) : (s.drive l d).half = s.half := rfl
@[simp] theorem State.drive_timer (s : State) (l : Level) (d : Nat) : (s.drive l d).timer = 0 := rfl
@[simp] theorem State.drive_done (s : State) (l : Level) (d : Nat) : (s.drive l d).done = s.done := rfl
@[simp] theorem State.drive_cfg (s : State) (l : Level) (d : Nat) : (s.drive l d).cfg = s.cfg := rfl
@[simp] theorem State.drive_frame (s : State) (l : Level) (d : Nat) : (s.drive l d).frame = s.frame := rfl
@[simp] theorem State.drive_line (s : State) (l : Level) (d : Nat) : (s.drive l d).line = s.line ++ [⟨l, d⟩] := rfl
@[simp] theorem State.drive_host (s : State) (l : Level) (d : Nat) : (s.drive l d).host = s.host := rfl
@[simp] theorem State.drive_micro (s : State) (l : Level) (d : Nat) : (s.drive l d).micro = s.micro := rfl

/-! ### latch -/

@[simp] theorem State.latch_tx (s : State) (h c u : BitVec 8) (t : BitVec 16) : (s.latch h c u t).tx = s.tx := rfl
@[simp] theorem State.latch_pulseState (s : State) (h c u : BitVec 8) (t : BitVec 16) : (s.latch h c u t).pulseState = s.pulseState := rfl
@[simp] theorem State.latch_parityBit (s : State) (h c u : BitVec 8) (t : BitVec 16) : (s.latch h c u t).parityBit = s.parityBit := rfl
@[simp] theorem State.latch_fHouse (s : State) (h c u : BitVec 8) (t : BitVec 16) : (s.latch h c u t).fHouse = houseField h := rfl
@[simp] theorem State.latch_fChan (s : State) (h c u : BitVec 8) (t : BitVec 16) : (s.latch h c u t).fChan = chanField c := rfl
@[simp] theorem State.latch_fHum (s : State) (h c u : BitVec 8) (t : BitVec 16) : (s.latch h c u t).fHum = humField u := rfl
@[simp] theorem State.latch_fTemp (s : State) (h c u : BitVec 8) (t : BitVec 16) : (s.latch h c u t).fTemp = tempField t := rfl
@[simp] theorem State.latch_phase (s : State) (h c u : BitVec 8) (t : BitVec 16) : (s.latch h c u t).phase = s.phase := rfl
@[simp] theorem State.latch_rep (s : State) (h c u : BitVec 8) (t : BitVec 16) : (s.latch h c u t).rep = s.rep := rfl
@[simp] theorem State.latch_step (s : State) (h c u : BitVec 8) (t : BitVec 16) : (s.latch h c u t).step = s.step := rfl
@[simp] theorem State.latch_bitidx (s : State) (h c u : BitVec 8) (t : BitVec 16) : (s.latch h c u t).bitidx = s.bitidx := rfl
@[simp] theorem State.latch_half (s : State) (h c u : BitVec 8) (t : BitVec 16) : (s.latch h c u t).half = s.half := rfl
@[simp] theorem State.latch_timer (s : State) (h c u : BitVec 8) (t : BitVec 16) : (s.latch h c u t).timer = s.timer := rfl
@[simp] theorem State.latch_done (s : State) (h c u : BitVec 8) (t : BitVec 16) : (s.latch h c u t).done = s.done := rfl
@[simp] theorem State.latch_cfg (s : State) (h c u : BitVec 8) (t : BitVec 16) : (s.latch h c u t).cfg = s.cfg := rfl
@[simp] theorem State.latch_frame (s : State) (h c u : BitVec 8) (t : BitVec 16) : (s.latch h c u t).frame = frameOfPorts h c u t := rfl
@[simp] theorem State.latch_line (s : State) (h c u : BitVec 8) (t : BitVec 16) : (s.latch h c u t).line = s.line := rfl
@[simp] theorem State.latch_host (s : State) (h c u : BitVec 8) (t : BitVec 16) : (s.latch h c u t).host = s.host := rfl
@[simp] theorem State.latch_micro (s : State) (h c u : BitVec 8) (t : BitVec 16) : (s.latch h c u t).micro = s.micro := rfl

/-! ### loadSequencer -/

@[simp] theorem State.loadSequencer_tx (s : State) : (s.loadSequencer).tx = s.tx := rfl
@[simp] theorem State.loadSequencer_pulseState (s : State) : (s.loadSequencer).pulseState = s.pulseState := rfl
@[simp] theorem State.loadSequencer_parityBit (s : State) : (s.loadSequencer).parityBit = s.parityBit := rfl
@[simp] theorem State.loadSequencer_fHouse (s : State) : (s.loadSequencer).fHouse = s.fHouse := rfl
@[simp] theorem State.loadSequencer_fChan (s : State) : (s.loadSequencer).fChan = s.fChan := rfl
@[simp] theorem State.loadSequencer_fHum (s : State) : (s.loadSequencer).fHum = s.fHum := rfl
@[simp] theorem State.loadSequencer_fTemp (s : State) : (s.loadSequencer).fTemp = s.fTemp := rfl
@[simp] theorem State.loadSequencer_phase (s : State) : (s.loadSequencer).phase = s.phase := rfl
@[simp] theorem State.loadSequencer_rep (s : State) : (s.loadSequencer).rep = s.cfg.repeats := rfl
@[simp] theorem State.loadSequencer_step (s : State) : (s.loadSequencer).step = .start := rfl
@[simp] theorem State.loadSequencer_bitidx (s : State) : (s.loadSequencer).bitidx = 0 := rfl
@[simp] theorem State.loadSequencer_half (s : State) : (s.loadSequencer).half = false := rfl
@[simp] theorem State.loadSequencer_timer (s : State) : (s.loadSequencer).timer = s.timer := rfl
@[simp] theorem State.loadSequencer_done (s : State) : (s.loadSequencer).done = s.done := rfl
@[simp] theorem State.loadSequencer_cfg (s : State) : (s.loadSequencer).cfg = s.cfg := rfl
@[simp] theorem State.loadSequencer_frame (s : State) : (s.loadSequencer).frame = s.frame := rfl
@[simp] theorem State.loadSequencer_line (s : State) : (s.loadSequencer).line = s.line := rfl
@[simp] theorem State.loadSequencer_host (s : State) : (s.loadSequencer).host = s.host := rfl
@[simp] theorem State.loadSequencer_micro (s : State) : (s.loadSequencer).micro = s.micro := rfl

/-! ### sym0 -/

@[simp] theorem State.sym0_tx (s : State) : (s.sym0).tx = s.pulseState := rfl
@[simp] theorem State.sym0_pulseState (s : State) : (s.sym0).pulseState = s.pulseState.not := rfl
@[simp] theorem State.sym0_parityBit (s : State) : (s.sym0).parityBit = s.parityBit := rfl
@[simp] theorem State.sym0_fHouse (s : State) : (s.sym0).fHouse = s.fHouse := rfl
@[simp] theorem State.sym0_fChan (s : State) : (s.sym0).fChan = s.fChan := rfl
@[simp] theorem State.sym0_fHum (s : State) : (s.sym0).fHum = s.fHum := rfl
@[simp] theorem State.sym0_fTemp (s : State) : (s.sym0).fTemp = s.fTemp := rfl
@[simp] theorem State.sym0_phase (s : State) : (s.sym0).phase = s.phase := rfl
@[simp] theorem State.sym0_rep (s : State) : (s.sym0).rep = s.rep := rfl
@[simp] theorem State.sym0_step (s : State) : (s.sym0).step = s.step := rfl
@[simp] theorem State.sym0_bitidx (s : State) : (s.sym0).bitidx = s.bitidx := rfl
@[simp] theorem State.sym0_half (s : State) : (s.sym0).half = s.half := rfl
@[simp] theorem State.sym0_timer (s : State) : (s.sym0).timer = 0 := rfl
@[simp] theorem State.sym0_done (s : State) : (s.sym0).done = s.done := rfl
@[simp] theorem State.sym0_cfg (s : State) : (s.sym0).cfg = s.cfg := rfl
@[simp] theorem State.sym0_frame (s : State) : (s.sym0).frame = s.frame := rfl
@[simp] theorem State.sym0_line (s : State) : (s.sym0).line = s.line ++ [⟨s.pulseState, s.cfg.tLong⟩] := rfl
@[simp] theorem State.sym0_host (s : State) : (s.sym0).host = s.host := rfl
@[simp] theorem State.sym0_micro (s : State) : (s.sym0).micro = s.micro := rfl

/-! ### startOp -/

@[simp] theorem State.startOp_tx (s : State) : (s.startOp).tx = .low := rfl
@[simp] theorem State.startOp_pulseState (s : State) : (s.startOp).pulseState = .high := rfl
@[simp] theorem State.startOp_parityBit (s : State) : (s.startOp).parityBit = false := rfl
@[simp] theorem State.startOp_fHouse (s : State) : (s.startOp).fHouse = s.fHouse := rfl
@[simp] theorem State.startOp_fChan (s : State) : (s.startOp).fChan = s.fChan := rfl
@[simp] theorem State.startOp_fHum (s : State) : (s.startOp).fHum = s.fHum := rfl
@[simp] theorem State.startOp_fTemp (s : State) : (s.startOp).fTemp = s.fTemp := rfl
@[simp] theorem State.startOp_phase (s : State) : (s.startOp).phase = s.phase := rfl
@[simp] theorem State.startOp_rep (s : State) : (s.startOp).rep = s.rep := rfl
@[simp] theorem State.startOp_step (s : State) : (s.startOp).step = s.step := rfl
@[simp] theorem State.startOp_bitidx (s : State) : (s.startOp).bitidx = s.bitidx := rfl
@[simp] theorem State.startOp_half (s : State) : (s.startOp).half = s.half := rfl
@[simp] theorem State.startOp_timer (s : State) : (s.startOp).timer = 0 := rfl
@[simp] theorem State.startOp_done (s : State) : (s.startOp).done = s.done := rfl
@[simp] theorem State.startOp_cfg (s : State) : (s.startOp).cfg = s.cfg := rfl
@[simp] theorem State.startOp_frame (s : State) : (s.startOp).frame = s.frame := rfl
@[simp] theorem State.startOp_line (s : State) : (s.startOp).line = s.line ++ [⟨.low, s.cfg.tTrigger⟩] := rfl
@[simp] theorem State.startOp_host (s : State) : (s.startOp).host = s.host := rfl
@[simp] theorem State.startOp_micro (s : State) : (s.startOp).micro = s.micro := rfl

/-! ### sym1 -/

@[simp] theorem State.sym1_tx (s : State) : s.sym1.tx = s.pulseState.not := rfl
@[simp] theorem State.sym1_pulseState (s : State) : s.sym1.pulseState = s.pulseState := rfl
@[simp] theorem State.sym1_parityBit (s : State) : s.sym1.parityBit = !s.parityBit := rfl
@[simp] theorem State.sym1_fHouse (s : State) : s.sym1.fHouse = s.fHouse := rfl
@[simp] theorem State.sym1_fChan (s : State) : s.sym1.fChan = s.fChan := rfl
@[simp] theorem State.sym1_fHum (s : State) : s.sym1.fHum = s.fHum := rfl
@[simp] theorem State.sym1_fTemp (s : State) : s.sym1.fTemp = s.fTemp := rfl
@[simp] theorem State.sym1_phase (s : State) : s.sym1.phase = s.phase := rfl
@[simp] theorem State.sym1_rep (s : State) : s.sym1.rep = s.rep := rfl
@[simp] theorem State.sym1_step (s : State) : s.sym1.step = s.step := rfl
@[simp] theorem State.sym1_bitidx (s : State) : s.sym1.bitidx = s.bitidx := rfl
@[simp] theorem State.sym1_half (s : State) : s.sym1.half = s.half := rfl
@[simp] theorem State.sym1_timer (s : State) : s.sym1.timer = 0 := rfl
@[simp] theorem State.sym1_done (s : State) : s.sym1.done = s.done := rfl
@[simp] theorem State.sym1_cfg (s : State) : s.sym1.cfg = s.cfg := rfl
@[simp] theorem State.sym1_frame (s : State) : s.sym1.frame = s.frame := rfl
@[simp] theorem State.sym1_line (s : State) :
    s.sym1.line = s.line ++ [⟨s.pulseState, s.cfg.tShort⟩, ⟨s.pulseState.not, s.cfg.tShort⟩] := by
  show (s.line ++ _) ++ _ = _
  simp
@[simp] theorem State.sym1_host (s : State) : s.sym1.host = s.host := rfl
@[simp] theorem State.sym1_micro (s : State) : s.sym1.micro = s.micro := rfl

/-! ### resetEdge -/

@[simp] theorem State.resetEdge_tx (s : State) : s.resetEdge.tx = .low := rfl
@[simp] theorem State.resetEdge_pulseState (s : State) : s.resetEdge.pulseState = .high := rfl
@[simp] theorem State.resetEdge_parityBit (s : State) : s.resetEdge.parityBit = false := rfl
@[simp] theorem State.resetEdge_fHouse (s : State) : s.resetEdge.fHouse = 0 := rfl
@[simp] theorem State.resetEdge_fChan (s : State) : s.resetEdge.fChan = 0 := rfl
@[simp] theorem State.resetEdge_fHum (s : State) : s.resetEdge.fHum = 0 := rfl
@[simp] theorem State.resetEdge_fTemp (s : State) : s.resetEdge.fTemp = 0 := rfl
@[simp] theorem State.resetEdge_phase (s : State) : s.resetEdge.phase = .idle := rfl
@[simp] theorem State.resetEdge_rep (s : State) : s.resetEdge.rep = 0 := rfl
@[simp] theorem State.resetEdge_step (s : State) : s.resetEdge.step = .start := rfl
@[simp] theorem State.resetEdge_bitidx (s : State) : s.resetEdge.bitidx = 0 := rfl
@[simp] theorem State.resetEdge_half (s : State) : s.resetEdge.half = false := rfl
@[simp] theorem State.resetEdge_timer (s : State) : s.resetEdge.timer = 0 := rfl
@[simp] theorem State.resetEdge_done (s : State) : s.resetEdge.done = false := rfl
@[simp] theorem State.resetEdge_cfg (s : State) : s.resetEdge.cfg = s.cfg := rfl
@[simp] theorem State.resetEdge_frame (s : State) : s.resetEdge.frame = constantFrame := rfl
@[simp] theorem State.resetEdge_line (s : State) : s.resetEdge.line = [] := rfl
@[simp] theorem State.resetEdge_host (s : State) : s.resetEdge.host = s.host := rfl
@[simp] theorem State.resetEdge_micro (s : State) : s.resetEdge.micro = s.micro := rfl

/-! ### advance -/

theorem State.advance_inside (s : State) (h : 0 < s.bitidx) : s.advance = { s with bitidx := s.bitidx - 1 } := if_pos h

theorem State.advance_last (s : State) (h : s.bitidx = 0) :
    s.advance = { s with step := stepNext s.step, bitidx := stepWidth (stepNext s.step) - 1 } := if_neg (by omega)

@[simp] theorem State.advance_tx (s : State) : s.advance.tx = s.tx := by unfold State.advance; split <;> rfl
@[simp] theorem State.advance_pulseState (s : State) : s.advance.pulseState = s.pulseState := by unfold State.advance; split <;> rfl
@[simp] theorem State.advance_parityBit (s : State) : s.advance.parityBit = s.parityBit := by unfold State.advance; split <;> rfl
@[simp] theorem State.advance_fHouse (s : State) : s.advance.fHouse = s.fHouse := by unfold State.advance; split <;> rfl
@[simp] theorem State.advance_fChan (s : State) : s.advance.fChan = s.fChan := by unfold State.advance; split <;> rfl
@[simp] theorem State.advance_fHum (s : State) : s.advance.fHum = s.fHum := by unfold State.advance; split <;> rfl
@[simp] theorem State.advance_fTemp (s : State) : s.advance.fTemp = s.fTemp := by unfold State.advance; split <;> rfl
@[simp] theorem State.advance_phase (s : State) : s.advance.phase = s.phase := by unfold State.advance; split <;> rfl
@[simp] theorem State.advance_rep (s : State) : s.advance.rep = s.rep := by unfold State.advance; split <;> rfl
@[simp] theorem State.advance_half (s : State) : s.advance.half = s.half := by unfold State.advance; split <;> rfl
@[simp] theorem State.advance_timer (s : State) : s.advance.timer = s.timer := by unfold State.advance; split <;> rfl
@[simp] theorem State.advance_done (s : State) : s.advance.done = s.done := by unfold State.advance; split <;> rfl
@[simp] theorem State.advance_cfg (s : State) : s.advance.cfg = s.cfg := by unfold State.advance; split <;> rfl
@[simp] theorem State.advance_frame (s : State) : s.advance.frame = s.frame := by unfold State.advance; split <;> rfl
@[simp] theorem State.advance_line (s : State) : s.advance.line = s.line := by unfold State.advance; split <;> rfl
@[simp] theorem State.advance_host (s : State) : s.advance.host = s.host := by unfold State.advance; split <;> rfl
@[simp] theorem State.advance_micro (s : State) : s.advance.micro = s.micro := by unfold State.advance; split <;> rfl

end Sys2Proof.Machine
end

