-- ==== Sys2Proof/Laws/Waveform.lean ====
section
/-! SUPPORT. The waveform functions of R102: symbols of a concatenation, the level after a run of symbols, lengths and
durations. -/

namespace Sys2Proof

@[simp] theorem Level.not_not (p : Level) : p.not.not = p := by cases p <;> rfl

@[simp] theorem Level.not_ne (p : Level) : p.not ≠ p := by cases p <;> decide

@[simp] theorem Level.ne_not (p : Level) : p ≠ p.not := by cases p <;> decide

end Sys2Proof

namespace Sys2Proof.Machine

@[simp] theorem syms_append_fst (c : Config) (a b : List Bool) (p : Level) :
    (syms c (a ++ b) p).1 = (syms c a p).1 ++ (syms c b (syms c a p).2).1 := by
  induction a generalizing p with
  | nil => rfl
  | cons x xs ih => cases x <;> simp [syms, ih]

@[simp] theorem syms_append_snd (c : Config) (a b : List Bool) (p : Level) :
    (syms c (a ++ b) p).2 = (syms c b (syms c a p).2).2 := by
  induction a generalizing p with
  | nil => rfl
  | cons x xs ih => cases x <;> simp [syms, ih]

/-- The level after a run of symbols: toggled once per 0 bit (R94). -/
theorem syms_level (c : Config) (bits : List Bool) (p : Level) :
    (syms c bits p).2 = if countBits false bits % 2 = 0 then p else p.not := by
  induction bits generalizing p with
  | nil => rfl
  | cons x xs ih =>
    cases x
    · simp only [syms, ih, countBits, if_true, Level.not_not]
      rcases Nat.mod_two_eq_zero_or_one (countBits false xs) with h | h <;> simp [h, Nat.add_mod]
    · simp [syms, ih, countBits]

/-- A bit list of even length and even parity leaves the level as it was: the argument of R94. -/
theorem syms_level_even (c : Config) (bits : List Bool) (p : Level) (hl : bits.length % 2 = 0) (hx : xorBits bits = false) :
    (syms c bits p).2 = p := by
  rw [syms_level, if_pos]
  rw [xorBits_eq_oddOnes] at hx
  have h1 : countBits true bits % 2 ≠ 1 := by simpa [oddOnes] using hx
  have h2 := countBits_total bits
  omega

/-- On entry to END, `pulseState = HIGH` (R94). -/
theorem syms_frame_level (c : Config) (h : BitVec 4) (ch : BitVec 2) (u : BitVec 7) (t : BitVec 15) :
    (syms c (bitsMsb (frameOfFields h ch u t)) .high).2 = .high :=
  syms_level_even c _ _ (by simp) (xorBits_frameOfFields h ch u t)

theorem syms_length (c : Config) (bits : List Bool) (p : Level) :
    (syms c bits p).1.length = countBits false bits + 2 * countBits true bits := by
  induction bits generalizing p with
  | nil => rfl
  | cons x xs ih => cases x <;> simp [syms, ih, countBits] <;> omega

@[simp] theorem duration_append (a b : Wave) : duration (a ++ b) = duration a + duration b := by
  induction a with
  | nil => simp [duration]
  | cons g gs ih => simp [duration, ih]; omega

theorem syms_duration (c : Config) (bits : List Bool) (p : Level) :
    duration (syms c bits p).1 = countBits false bits * c.tLong + 2 * countBits true bits * c.tShort := by
  induction bits generalizing p with
  | nil => simp [syms, duration, countBits]
  | cons x xs ih => cases x <;> simp [syms, duration, ih, countBits] <;> ring

@[simp] theorem cycles_append (c : Config) (a b : Wave) : cycles c (a ++ b) = cycles c a ++ cycles c b := by
  induction a with
  | nil => rfl
  | cons g gs ih => simp [cycles, ih]

@[simp] theorem cycles_length (c : Config) (w : Wave) : (cycles c w).length = duration w * c.cyclesPerUs := by
  induction w with
  | nil => simp [cycles, duration]
  | cons g gs ih => simp [cycles, duration, ih, Nat.add_mul]

theorem framed_eq (c : Config) (bits : List Bool) : framed c bits = ⟨.low, c.tTrigger⟩ :: symsEnd c bits .high := by
  simp [framed, symsEnd]

end Sys2Proof.Machine
end

