-- ==== Sys2Proof/Laws/Operations.lean ====
section
/-! SUPPORT. What the shared operations of the transmitter do, said once: EMIT of a list of bits, the steps, the arms of `NextSeg`, an
edge, a step. -/

namespace Sys2Proof.Machine

theorem State.emitBits_append (s : State) (a b : List Bool) : s.emitBits (a ++ b) = (s.emitBits a).emitBits b := by
  induction a generalizing s with
  | nil => rfl
  | cons x xs ih => cases x <;> simp [State.emitBits, ih]

/-- EMIT of at least one bit: the symbols join the waveform, `pulseState` is what they leave, the line is its opposite (R12), and
`parityBit` has taken the exclusive-or of the bits (R92). -/
theorem State.emitBits_eq (s : State) (bits : List Bool) (h : bits ≠ []) :
    s.emitBits bits =
      { s with tx := (syms s.cfg bits s.pulseState).2.not, timer := 0, pulseState := (syms s.cfg bits s.pulseState).2,
               parityBit := s.parityBit ^^ xorBits bits, line := s.line ++ (syms s.cfg bits s.pulseState).1 } := by
  induction bits generalizing s with
  | nil => exact absurd rfl h
  | cons x xs ih =>
    rcases List.eq_nil_or_concat xs with rfl | hne
    · cases x <;> simp [State.emitBits, syms, xorBits, State.sym0, State.sym1, State.drive, State.issue, State.elapse,
        State.invertPulse, State.invertParity]
    · have hxs : xs ≠ [] := by
        obtain ⟨l, b, rfl⟩ := hne
        simp
      cases x
      · rw [State.emitBits, ih _ hxs]
        simp [State.sym0, State.drive, State.issue, State.elapse, State.invertPulse, syms, xorBits]
      · rw [State.emitBits, ih _ hxs]
        simp [State.sym1, State.drive, State.issue, State.elapse, State.invertParity, syms, xorBits]

/-- END, both arms (R96). -/
theorem State.endOp_eq (s : State) :
    s.endOp = { s with tx := .low, timer := 0, line := s.line ++ endSegs s.cfg s.pulseState } := by
  unfold State.endOp endSegs
  split <;> simp [State.drive, State.issue, State.elapse]

/-- Everything `NextSeg` can answer (R99): `Finish` with no frame left; START's hold; the only segment of a 0 bit; the first or the
second segment of a 1 bit; END's half-pulse; END's hold. -/
theorem State.nextSeg_cases (s : State) :
    (s.rep = 0 ∧ s.nextSeg = .finish) ∨
    (s.rep ≠ 0 ∧ s.step = .start ∧ s.nextSeg = s.startSeg) ∨
    (s.rep ≠ 0 ∧ s.step ≠ .start ∧ s.step ≠ .endFrame ∧ s.nextSeg = s.emitSeg) ∨
    (s.rep ≠ 0 ∧ s.step = .endFrame ∧ s.nextSeg = s.endSeg) := by
  unfold State.nextSeg
  by_cases h : s.rep = 0
  · simp [h]
  · cases hs : s.step <;> simp [h]

/-- `NextSeg` changes nothing but the flags and the sequencer position. -/
theorem State.nextSeg_frame (s t : State) (g : Segment) (h : s.nextSeg = .seg t g) :
    t = { s with pulseState := t.pulseState, parityBit := t.parityBit, rep := t.rep, step := t.step, bitidx := t.bitidx,
                 half := t.half } := by
  rcases s.nextSeg_cases with ⟨_, h'⟩ | ⟨_, _, h'⟩ | ⟨_, _, _, h'⟩ | ⟨_, _, h'⟩ <;> rw [h'] at h
  · cases h
  · cases h; rfl
  · unfold State.emitSeg State.advance at h
    split at h
    · split at h <;> cases h <;> rfl
    · split at h
      · cases h; rfl
      · split at h <;> cases h <;> rfl
  · unfold State.endSeg at h
    split at h <;> cases h <;> rfl

/-- The level and the duration of a segment are one of the eight the rules name. -/
theorem State.nextSeg_segment (s t : State) (g : Segment) (h : s.nextSeg = .seg t g) :
    g.dur = s.cfg.tTrigger ∨ g.dur = s.cfg.tShort ∨ g.dur = s.cfg.tLong ∨ g.dur = s.cfg.tHalf := by
  rcases s.nextSeg_cases with ⟨_, h'⟩ | ⟨_, _, h'⟩ | ⟨_, _, _, h'⟩ | ⟨_, _, h'⟩ <;> rw [h'] at h
  · cases h
  · cases h; simp
  · unfold State.emitSeg at h
    split at h
    · cases h; simp
    · split at h <;> cases h <;> simp
  · unfold State.endSeg at h
    split at h <;> cases h <;> simp

/-- Everything one edge in `RUN` can do (R114): count down, begin a segment, or finish. -/
theorem State.runEdge_cases (s : State) :
    (s.timer ≠ 0 ∧ s.runEdge = { s with timer := s.timer - 1 }) ∨
    (s.timer = 0 ∧ ∃ t g, s.nextSeg = .seg t g ∧ s.runEdge = t.issue g) ∨
    (s.timer = 0 ∧ s.rep = 0 ∧ s.nextSeg = .finish ∧ s.runEdge = { s with phase := .idle, done := true }) := by
  unfold State.runEdge State.sequence
  by_cases h : s.timer = 0
  · rcases s.nextSeg_cases with ⟨hr, h'⟩ | ⟨_, _, h'⟩ | ⟨_, _, _, h'⟩ | ⟨_, _, h'⟩
    · exact .inr (.inr ⟨h, hr, h', by simp [h, h']⟩)
    · exact .inr (.inl ⟨h, _, _, h', by simp [h, h', State.startSeg]⟩)
    · refine .inr (.inl ⟨h, ?_⟩)
      rw [h']
      unfold State.emitSeg
      split
      · exact ⟨_, _, rfl, by simp [h]⟩
      · split <;> exact ⟨_, _, rfl, by simp [h]⟩
    · refine .inr (.inl ⟨h, ?_⟩)
      rw [h']
      unfold State.endSeg
      split <;> exact ⟨_, _, rfl, by simp [h]⟩
  · exact .inl ⟨h, by simp [h]⟩

/-- Acceptance, written out (R113): with `REPEATS >= 1` the first segment is START's hold. -/
theorem State.accept_eq (s : State) (h c u : BitVec 8) (t : BitVec 16) (hr : s.cfg.repeats ≠ 0) :
    s.accept h c u t =
      { s with fHouse := houseField h, fChan := chanField c, fHum := humField u, fTemp := tempField t,
               frame := frameOfPorts h c u t, rep := s.cfg.repeats, step := .emitPre, bitidx := 3, half := false,
               phase := .run, done := false, parityBit := false, pulseState := .high, tx := .low,
               timer := s.cfg.tTrigger * s.cfg.cyclesPerUs - 1, line := [⟨.low, s.cfg.tTrigger⟩] } := by
  simp [State.accept, State.sequence, State.nextSeg, State.startSeg, State.issue, State.loadSequencer, State.latch, hr]

/-- Everything an edge with the ports `p` can do when it answers a next state (R114). -/
theorem State.edge_cases (s t : State) (p : Ports) (h : s.edge p = .next t) :
    configLegal s.cfg = true ∧
    ((p.rst = true ∧ t = s.resetEdge) ∨
     (p.rst = false ∧ s.phase = .run ∧ t = s.runEdge) ∨
     (p.rst = false ∧ s.phase = .idle ∧ p.start = false ∧ t = { s with done := false }) ∨
     (p.rst = false ∧ s.phase = .idle ∧ p.start = true ∧ admits s.cfg p.house p.channel p.humidity p.tempQ7 = true ∧
       t = State.accept { s with done := false } p.house p.channel p.humidity p.tempQ7)) := by
  unfold State.edge at h
  by_cases hc : configLegal s.cfg = true
  · refine ⟨hc, ?_⟩
    by_cases hr : p.rst = true
    · left
      simp [hc, hr] at h
      exact ⟨hr, h.symm⟩
    · right
      have hr' : p.rst = false := by simpa using hr
      cases hp : s.phase with
      | run =>
        simp [hc, hr', hp] at h
        exact .inl ⟨hr', rfl, h.symm⟩
      | idle =>
        right
        cases hs : p.start with
        | false =>
          simp [hc, hr', hp, decode, decodeStrobe, hs] at h
          exact .inl ⟨hr', rfl, rfl, h.symm⟩
        | true =>
          simp [hc, hr', hp, decode, decodeStrobe, hs, exec, execTransmit] at h
          split at h
          · cases h
          · rename_i ha
            refine .inr ⟨hr', rfl, rfl, by simpa using ha, ?_⟩
            cases h; rfl
  · simp [hc] at h

/-- A step is a clock edge unless the block is idle with a direct operation pending. -/
theorem step_eq_edge (s : State) (h : s.phase = .run ∨ s.micro = []) :
    step s = State.edge { s with host := s.host.tail } s.portsNow := by
  unfold step State.stepOnce State.clockEdge
  cases hp : s.phase <;> cases hm : s.micro <;> simp_all

/-- A step in `RUN` with `rst = 0` is the running edge, whatever else the host drives (R114). -/
theorem step_run (s : State) (hc : configLegal s.cfg = true) (h : s.phase = .run) (hr : (s.host.headD Ports.quiet).rst = false) :
    step s = .next (State.runEdge { s with host := s.host.tail }) := by
  rw [step_eq_edge s (.inl h), show s.portsNow = s.host.headD Ports.quiet from rfl]
  generalize s.host.headD Ports.quiet = p at hr
  simp [State.edge, hc, hr, h]

/-- A step of an idle block with a direct operation pending runs that operation. -/
theorem step_eq_direct (s : State) (cw : CodeWord) (rest : List CodeWord) (h : s.phase = .idle) (hm : s.micro = cw :: rest) :
    step s = State.direct { s with micro := rest } cw := by
  unfold step State.stepOnce
  simp [h, hm]

end Sys2Proof.Machine
end

