-- ==== Sys2Proof/Laws/PerInstr.lean ====
section
/-! SUPPORT. Per instruction: the encoded word of an operation is a word of its own row of spec/opcode_table.json. -/

open Sys2Proof Sys2Proof.Machine

/-- The code word of `i` has its row's format, the row's fixed bits, and no 1 bit outside the lettered ones. -/
def Sys2Proof.Laws.TableRow.Statement : Instr → Prop
  | .transmit h c u t => ∃ p, encode (.transmit h c u t) = .strobe p ∧ p.start = true ∧ p.rst = false
  | .frame h c u t => ∃ w, encode (.frame h c u t) = .frame36 w ∧ w &&& 0xF03800000#36 = 0xC03000000#36
  | .fieldHouse h => ∃ w, encode (.fieldHouse h) = .field36 .house w ∧ w &&& 0xF0FFFFFFF#36 = 0#36
  | .encChan c => ∃ w, encode (.encChan c) = .field36 .chan w ∧ w &&& 0xFF3FFFFFF#36 = 0#36
  | .fieldHum u => ∃ w, encode (.fieldHum u) = .field36 .hum w ∧ w &&& 0xFFF80FFFF#36 = 0#36
  | .encTemp t => ∃ w, encode (.encTemp t) = .field36 .temp w ∧ w &&& 0xFFFFF0001#36 = 0#36
  | .parity => ∃ w, encode .parity = .field36 .par w ∧ w &&& 0xFFFFFFFFE#36 = 0#36
  | .sym0 => encode .sym0 = .symbol 0b0#1
  | .sym1 => encode .sym1 = .symbol 0b1#1
  | .start => encode .start = .stepCode 0b0000#4
  | .emitPre => encode .emitPre = .stepCode 0b0001#4
  | .emitHouse => encode .emitHouse = .stepCode 0b0010#4
  | .emitChan => encode .emitChan = .stepCode 0b0011#4
  | .emitSep => encode .emitSep = .stepCode 0b0100#4
  | .emitHum => encode .emitHum = .stepCode 0b0101#4
  | .emitTemp => encode .emitTemp = .stepCode 0b0110#4
  | .emitPar => encode .emitPar = .stepCode 0b0111#4
  | .endFrame => encode .endFrame = .stepCode 0b1000#4
  | .repeatFrames => encode .repeatFrames = .sequence 0b000000010010001101000101011001111000#36

/-- A field in its place meets no bit of a mask that is 0 there. -/
theorem Sys2Proof.Laws.TableRow.shifted_and {w : Nat} (f : BitVec w) (lo : Nat) (m : BitVec 36)
    (h : ∀ i, lo ≤ i → i < lo + w → m.getLsbD i = false) : (f.setWidth 36 <<< lo : BitVec 36) &&& m = 0#36 := by
  apply BitVec.eq_of_getLsbD_eq
  intro i _
  rw [BitVec.getLsbD_and]
  by_cases hi : lo ≤ i ∧ i < lo + w
  · simp [h i hi.1 hi.2]
  · rw [shifted_getLsbD f lo i hi]
    simp

theorem Sys2Proof.Laws.TableRow.transmit (h c u : BitVec 8) (t : BitVec 16) :
    Sys2Proof.Laws.TableRow.Statement (.transmit h c u t) := ⟨_, rfl, rfl, rfl⟩

theorem Sys2Proof.Laws.TableRow.frame (h c u : BitVec 8) (t : BitVec 16) :
    Sys2Proof.Laws.TableRow.Statement (.frame h c u t) := ⟨_, rfl, frameOfFields_constants _ _ _ _⟩

theorem Sys2Proof.Laws.TableRow.fieldHouse (h : BitVec 8) : Sys2Proof.Laws.TableRow.Statement (.fieldHouse h) :=
  ⟨_, rfl, Sys2Proof.Laws.TableRow.shifted_and _ 28 _ fun i a b => by interval_cases i <;> rfl⟩

theorem Sys2Proof.Laws.TableRow.encChan (c : BitVec 8) : Sys2Proof.Laws.TableRow.Statement (.encChan c) :=
  ⟨_, rfl, Sys2Proof.Laws.TableRow.shifted_and _ 26 _ fun i a b => by interval_cases i <;> rfl⟩

theorem Sys2Proof.Laws.TableRow.fieldHum (u : BitVec 8) : Sys2Proof.Laws.TableRow.Statement (.fieldHum u) :=
  ⟨_, rfl, Sys2Proof.Laws.TableRow.shifted_and _ 16 _ fun i a b => by interval_cases i <;> rfl⟩

theorem Sys2Proof.Laws.TableRow.encTemp (t : BitVec 16) : Sys2Proof.Laws.TableRow.Statement (.encTemp t) :=
  ⟨_, rfl, Sys2Proof.Laws.TableRow.shifted_and _ 1 _ fun i a b => by interval_cases i <;> rfl⟩

theorem Sys2Proof.Laws.TableRow.parity : Sys2Proof.Laws.TableRow.Statement .parity := ⟨_, rfl, by decide⟩
theorem Sys2Proof.Laws.TableRow.sym0 : Sys2Proof.Laws.TableRow.Statement .sym0 := rfl
theorem Sys2Proof.Laws.TableRow.sym1 : Sys2Proof.Laws.TableRow.Statement .sym1 := rfl
theorem Sys2Proof.Laws.TableRow.start : Sys2Proof.Laws.TableRow.Statement .start := rfl
theorem Sys2Proof.Laws.TableRow.emitPre : Sys2Proof.Laws.TableRow.Statement .emitPre := rfl
theorem Sys2Proof.Laws.TableRow.emitHouse : Sys2Proof.Laws.TableRow.Statement .emitHouse := rfl
theorem Sys2Proof.Laws.TableRow.emitChan : Sys2Proof.Laws.TableRow.Statement .emitChan := rfl
theorem Sys2Proof.Laws.TableRow.emitSep : Sys2Proof.Laws.TableRow.Statement .emitSep := rfl
theorem Sys2Proof.Laws.TableRow.emitHum : Sys2Proof.Laws.TableRow.Statement .emitHum := rfl
theorem Sys2Proof.Laws.TableRow.emitTemp : Sys2Proof.Laws.TableRow.Statement .emitTemp := rfl
theorem Sys2Proof.Laws.TableRow.emitPar : Sys2Proof.Laws.TableRow.Statement .emitPar := rfl
theorem Sys2Proof.Laws.TableRow.endFrame : Sys2Proof.Laws.TableRow.Statement .endFrame := rfl
theorem Sys2Proof.Laws.TableRow.repeatFrames : Sys2Proof.Laws.TableRow.Statement .repeatFrames := rfl
end

