-- ==== Sys2Proof/Laws/Sequencer.lean ====
section
/-! SUPPORT. `NextSeg` called again and again: it does not see the outside or the record of the waveform, its runs join, one call or two
make a symbol; and runs of the machine. -/

namespace Sys2Proof.Machine

/-- `Advance` does not see what the host drives or what was driven. -/
theorem State.advance_outer (s : State) (r : List Ports) (l : Wave) :
    State.advance { s with host := r, line := l } = { s.advance with host := r, line := l } := by
  by_cases h : 0 < s.bitidx <;> simp [State.advance, h]

theorem State.emitSeg_second (s : State) (h : s.half = true) : s.emitSeg =
    .seg (State.advance { s with parityBit := !s.parityBit, half := false }) ⟨s.pulseState.not, s.cfg.tShort⟩ := by
  simp [State.emitSeg, h]

theorem State.emitSeg_one (s : State) (h : s.half = false) (hb : s.srcBit s.step s.bitidx = true) : s.emitSeg =
    .seg { s with half := true } ⟨s.pulseState, s.cfg.tShort⟩ := by
  simp [State.emitSeg, h, hb]

theorem State.emitSeg_zero (s : State) (h : s.half = false) (hb : s.srcBit s.step s.bitidx = false) : s.emitSeg =
    .seg (State.advance { s with pulseState := s.pulseState.not }) ⟨s.pulseState, s.cfg.tLong⟩ := by
  simp [State.emitSeg, h, hb]

/-- A field step's `NextSeg` is its arm of R99. -/
theorem State.nextSeg_emit (s : State) (h : s.rep ≠ 0) (h1 : s.step ≠ .start) (h2 : s.step ≠ .endFrame) :
    s.nextSeg = s.emitSeg := by
  rcases s.nextSeg_cases with ⟨e, _⟩ | ⟨_, e, _⟩ | ⟨_, _, _, e⟩ | ⟨_, e, _⟩
  · exact absurd e h
  · exact absurd e h1
  · exact e
  · exact absurd e h2

/-- `NextSeg` does not see what the host drives or what was driven (R114). -/
theorem State.nextSeg_outer (s t : State) (g : Segment) (r : List Ports) (l : Wave) (h : s.nextSeg = .seg t g) :
    State.nextSeg { s with host := r, line := l } = .seg { t with host := r, line := l } g := by
  rcases s.nextSeg_cases with ⟨_, e⟩ | ⟨h0, hs, e⟩ | ⟨h0, h1, h2, e⟩ | ⟨h0, hs, e⟩ <;> rw [e] at h
  · cases h
  · have e' : State.nextSeg { s with host := r, line := l } = State.startSeg { s with host := r, line := l } := by
      simp [State.nextSeg, h0, hs]
    rw [e']
    cases h
    rfl
  · rw [State.nextSeg_emit { s with host := r, line := l } h0 h1 h2]
    have sb : State.srcBit { s with host := r, line := l } s.step s.bitidx = s.srcBit s.step s.bitidx := by
      cases s.step <;> rfl
    rcases Bool.eq_false_or_eq_true s.half with hh | hh
    · rw [State.emitSeg_second s hh] at h
      rw [State.emitSeg_second { s with host := r, line := l } hh]
      cases h
      rw [← State.advance_outer]
    · rcases Bool.eq_false_or_eq_true (s.srcBit s.step s.bitidx) with hb | hb
      · rw [State.emitSeg_one s hh hb] at h
        rw [State.emitSeg_one { s with host := r, line := l } hh (sb.trans hb)]
        cases h
        rfl
      · rw [State.emitSeg_zero s hh hb] at h
        rw [State.emitSeg_zero { s with host := r, line := l } hh (sb.trans hb)]
        cases h
        rw [← State.advance_outer]
  · have e' : State.nextSeg { s with host := r, line := l } = State.endSeg { s with host := r, line := l } := by
      simp [State.nextSeg, h0, hs]
    rw [e']
    unfold State.endSeg at h ⊢
    split at h
    · rename_i hb
      rw [if_pos hb]
      cases h
      rfl
    · rename_i hb
      rw [if_neg hb]
      cases h
      rfl

@[simp] theorem State.segments_zero (s : State) : State.segments 0 s = some s := rfl

theorem State.segments_one (s t : State) (g : Segment) (h : s.nextSeg = .seg t g) :
    State.segments 1 s = some (t.issue g).elapse := by
  simp [State.segments, h]

/-- A run of `NextSeg` can be cut anywhere. -/
theorem State.segments_add (m n : Nat) (s t : State) (h : State.segments m s = some t) :
    State.segments (m + n) s = State.segments n t := by
  induction m generalizing s with
  | zero => cases h; simp
  | succ m ih =>
    rw [Nat.succ_add, State.segments]
    rw [State.segments] at h
    cases hn : s.nextSeg with
    | finish => rw [hn] at h; cases h
    | seg u g => rw [hn] at h; exact ih _ h

/-- `Advance` and the passing of a segment's time do not see each other. -/
theorem State.advance_issue_elapse (s : State) (g : Segment) : (s.advance.issue g).elapse = (s.issue g).elapse.advance := by
  by_cases h : 0 < s.bitidx <;> simp [State.advance, State.issue, State.elapse, h]

/-- One bit of a field step (R81, R82 against R99): one call of `NextSeg` for a 0, two for a 1, do what the symbol does, and the position
advances. -/
theorem State.segments_symbol (s : State) (h0 : s.rep ≠ 0) (h1 : s.step ≠ .start) (h2 : s.step ≠ .endFrame) (hh : s.half = false) :
    State.segments (if s.srcBit s.step s.bitidx then 2 else 1) s =
      some (if s.srcBit s.step s.bitidx then s.sym1.advance else s.sym0.advance) := by
  cases hb : s.srcBit s.step s.bitidx
  · have e := (State.nextSeg_emit s h0 h1 h2).trans (State.emitSeg_zero s hh hb)
    rw [if_neg (by decide), if_neg (by decide), State.segments_one _ _ _ e, State.advance_issue_elapse]
    rfl
  · have e := (State.nextSeg_emit s h0 h1 h2).trans (State.emitSeg_one s hh hb)
    rw [if_pos rfl, if_pos rfl, State.segments, e]
    have e' := (State.nextSeg_emit (State.issue { s with half := true } ⟨s.pulseState, s.cfg.tShort⟩).elapse h0 h1 h2).trans
      (State.emitSeg_second (State.issue { s with half := true } ⟨s.pulseState, s.cfg.tShort⟩).elapse rfl)
    show State.segments 1 _ = _
    rw [State.segments_one _ _ _ e', State.advance_issue_elapse]
    simp [State.sym1, State.issue, State.elapse, State.drive, State.invertParity, hh]

/-- A run begins with its first step. -/
theorem run_succ (n : Nat) (s t : State) (h : step s = .next t) :
    Host.Core.run Sys2Proof.core (n + 1) s = Host.Core.run Sys2Proof.core n t := by
  have h' : Sys2Proof.core.step s = .next t := h
  simp only [Host.Core.run, h']

/-- A run ends with its last step. -/
theorem run_snoc (n : Nat) (s t : State) (h : Host.Core.run Sys2Proof.core n s = .next t) :
    Host.Core.run Sys2Proof.core (n + 1) s = step t := by
  induction n generalizing s with
  | zero =>
    have : s = t := Host.Outcome.next.inj h
    subst this
    have e : ∀ r, Sys2Proof.core.step s = r → Host.Core.run Sys2Proof.core 1 s = r := by
      intro r hr
      simp only [Host.Core.run, hr]
      cases r <;> rfl
    exact e _ rfl
  | succ n ih =>
    cases hs : step s with
    | next u =>
      rw [run_succ _ s u hs] at h ⊢
      exact ih u h
    | fault r => exact r.rec
    | refused r =>
      have hs' : Sys2Proof.core.step s = .refused r := hs
      simp only [Host.Core.run, hs'] at h
      cases h

end Sys2Proof.Machine
end

