-- ==== Sys2Proof/Tests/Slice0.lean ====
section
/-! SUPPORT. The model's own tests. Expected values come from spec/: the vectors V, M and the tables of 95_test_vectors.md, the worked
examples of the rules, and words written out from the encodings of 30_encoding.md. After them, for every statement with hypotheses,
witnesses that its hypotheses can be met. -/

namespace Sys2Proof.Machine

open Host

set_option Elab.async false

/-! ### Small states -/

/-- The block after reset with the latches of vector V1. -/
def scenario : State := { State.reset with fHouse := 0b0001#4, fChan := 0b00#2, fHum := 0b0111011#7, fTemp := 0b010010011000000#15 }

/-- A short legal configuration: one frame, a few cycles. -/
def tiny : Config := { tTrigger := 2, tShort := 1, tLong := 2, tHalf := 1, repeats := 1, cyclesPerUs := 1, validate := false }

/-- The ports of TRANSMIT 1, 1, 59, 23.5 (R113's example). -/
def strobed : Ports := { rst := false, start := true, house := 0x01, channel := 0x01, humidity := 0x3B, tempQ7 := 0x0BC0 }

/-- An idle block of configuration `c` at whose next edges the host drives `ps`. -/
def idleBlock (c : Config) (ps : List Ports) : State := { State.reset with cfg := c, host := ps }

/-- A block in `RUN` at EMIT_HOUSE's first bit, V1's latches, with the timer at `timer`. -/
def running (timer : Nat) : State :=
  { scenario with cfg := tiny, phase := .run, rep := 1, step := .emitHouse, bitidx := 3, half := false, timer := timer }

/-- The next state, where there is one. -/
def nextOf : Outcome State Fault Refusal → Option State
  | .next t => some t
  | _ => none

/-- A field of the next state of an operation. -/
def after {α : Type} (i : Instr) (s : State) (f : State → α) : Option α := (nextOf (exec i s)).map f

/-- The segments an operation adds to the waveform of a state that has driven nothing. -/
def drives (i : Instr) (s : State) : Option (List (Level × Nat)) := after i s fun t => t.line.map fun g => (g.level, g.dur)

/-! ### WellFormed: an ill-formed term for each check -/

theorem test_illformed_house : (Instr.fieldHouse 16).wellFormed = false := by decide
theorem test_illformed_channel_low : (Instr.encChan 0).wellFormed = false := by decide
theorem test_illformed_channel_high : (Instr.encChan 5).wellFormed = false := by decide
theorem test_illformed_humidity : (Instr.fieldHum 128).wellFormed = false := by decide
theorem test_illformed_temp_low : (Instr.encTemp (BitVec.ofInt 16 (-6401))).wellFormed = false := by decide
theorem test_illformed_temp_high : (Instr.encTemp 26368).wellFormed = false := by decide
theorem test_illformed_frame : (Instr.frame 16 1 0 0).wellFormed = false ∧ (Instr.frame 1 0 0 0).wellFormed = false
    ∧ (Instr.frame 1 1 128 0).wellFormed = false ∧ (Instr.frame 1 1 0 26368).wellFormed = false := by decide
theorem test_wellformed_bounds : (Instr.frame 0 1 0 (BitVec.ofInt 16 (-6400))).wellFormed = true
    ∧ (Instr.frame 15 4 127 26367).wellFormed = true := by decide

/-! ### Decoding: words written out from the encodings -/

/-- R42, R113's example. -/
theorem test_decode_strobe : decode (.strobe strobed) = .ok (.transmit 1 1 59 3008) := by decide
theorem test_decode_strobe_reset : decode (.strobe { strobed with rst := true }) = .error .resetAsserted := by decide
theorem test_decode_strobe_quiet : decode (.strobe Ports.quiet) = .error .noStart := by decide
/-- V1's frame, and V6's with a negative temperature (-12.25, q = -1568). -/
theorem test_decode_frame_v1 : decode (.frame36 0b1100_0001_00_110_0111011_010010011000000_0#36) = .ok (.frame 1 1 59 3008) := by
  decide +kernel
theorem test_decode_frame_v6 : decode (.frame36 0b1100_0111_10_110_1100100_001001011100000_0#36)
    = .ok (.frame 7 3 100 (BitVec.ofInt 16 (-1568))) := by decide +kernel
theorem test_decode_frame_rejects : decode (.frame36 0b0100_0001_00_110_0111011_010010011000000_0#36) = .error .badPreamble
    ∧ decode (.frame36 0b1100_0001_00_111_0111011_010010011000000_0#36) = .error .badSeparator
    ∧ decode (.frame36 0b1100_0001_00_110_0111011_010010011000000_1#36) = .error .badParity := by decide +kernel
theorem test_decode_house : decode (.field36 .house 0b0000_1111_00_000_0000000_000000000000000_0#36) = .ok (.fieldHouse 15) := by
  decide
theorem test_decode_chan : decode (.field36 .chan 0b0000_0000_11_000_0000000_000000000000000_0#36) = .ok (.encChan 4) := by decide
theorem test_decode_hum : decode (.field36 .hum 0b0000_0000_00_000_0111011_000000000000000_0#36) = .ok (.fieldHum 59) := by decide
theorem test_decode_temp : decode (.field36 .temp 0b0000_0000_00_000_0000000_010010011000000_0#36) = .ok (.encTemp 3008) := by decide
theorem test_decode_parity : decode (.field36 .par 0b0000_0000_00_000_0000000_000000000000000_1#36) = .ok .parity := by decide
theorem test_decode_symbols : decode (.symbol 0b0#1) = .ok .sym0 ∧ decode (.symbol 0b1#1) = .ok .sym1 := by decide
/-- The nine step codes (R47). -/
theorem test_decode_steps :
    [0b0000#4, 0b0001#4, 0b0010#4, 0b0011#4, 0b0100#4, 0b0101#4, 0b0110#4, 0b0111#4, 0b1000#4].map (fun c => decode (.stepCode c))
    = [.ok .start, .ok .emitPre, .ok .emitHouse, .ok .emitChan, .ok .emitSep, .ok .emitHum, .ok .emitTemp, .ok .emitPar,
       .ok .endFrame] := by decide
theorem test_decode_reserved_step : decode (.stepCode 0b1001#4) = .error (.reservedStepCode 9) := by decide
theorem test_decode_sequence :
    decode (.sequence 0b0000_0001_0010_0011_0100_0101_0110_0111_1000#36) = .ok .repeatFrames := by decide
theorem test_decode_other_sequence :
    decode (.sequence 0b0001_0000_0010_0011_0100_0101_0110_0111_1000#36) = .error .otherSequence := by decide
/-- The rows of the table that carry a match and a mask. -/
theorem test_table_words : decodeTableWord 36 0xC03000000 = some (.frame 0 1 0 (BitVec.ofInt 16 (-6400)))
    ∧ decodeTableWord 4 0x8 = some .endFrame ∧ decodeTableWord 4 0x9 = none ∧ decodeTableWord 1 0 = some .sym0 := by decide +kernel

/-! ### The Frame Encoder (95_test_vectors, section 2.1) -/

/-- V1; no latch is written (R14, R68). -/
theorem test_frame_v1 : after (.frame 1 1 59 3008) State.reset (fun t => (t.frame, t.fHouse, t.fHum, t.fTemp)) =
    some (0xC133B4980#36, 0#4, 0#7, 0#15) := by decide +kernel
/-- V12: the wrapped operands at the ports. -/
theorem test_frame_v12 : after (.frame 0x00 0x00 0xFF 0xE6FF) State.reset State.frame = some 0xC0F7FFFFE#36 := by decide +kernel
/-- V8 and V13: `floor`, toward minus infinity. -/
theorem test_frame_floor : frameOfCall 1 1 59 (23507 / 1000) = 0xC133B4980#36
    ∧ frameOfCall 5 3 33 (-1 / 1000) = 0xC5B2131FF#36 := by decide +kernel
/-- V9, V10, V11: every operand out of range. -/
theorem test_frame_wraps : frameOfCall 17 5 200 (-50) = 0xC13480001#36
    ∧ frameOfCall 0 0 (-1) (-6401 / 128) = 0xC0F7FFFFE#36 ∧ frameOfCall (-1) 1 0 206 = 0xCF3000000#36 := by decide +kernel
theorem test_fieldHouse : after (.fieldHouse 17) State.reset State.fHouse = some 0b0001#4
    ∧ after (.fieldHouse 255) State.reset State.fHouse = some 0b1111#4 := by decide +kernel
theorem test_fieldHouse_frame : after (.fieldHouse 15) State.reset State.frame = some 0xCF3000000#36 := by decide +kernel
theorem test_encChan : after (.encChan 0) State.reset State.fChan = some 0b11#2
    ∧ after (.encChan 5) State.reset State.fChan = some 0b00#2 := by decide +kernel
theorem test_fieldHum : after (.fieldHum 200) State.reset State.fHum = some 0b1001000#7
    ∧ after (.fieldHum 59) State.reset State.fHum = some 0b0111011#7 := by decide +kernel
theorem test_encTemp : after (.encTemp 26368) State.reset State.fTemp = some 0#15
    ∧ after (.encTemp 0x8000) State.reset State.fTemp = some 6400#15 := by decide +kernel
theorem test_encTemp_negative : after (.encTemp (BitVec.ofInt 16 (-1))) State.reset State.fTemp = some 6399#15 := by decide +kernel
/-- V2's bits: 25 ones among the 35. -/
theorem test_parity_v2 : after .parity { State.reset with fHouse := 15, fChan := 3, fHum := 127, fTemp := 32640 }
    (fun t => t.frame.getLsbD 0) = some true := by decide +kernel
theorem test_parity_v1 : after .parity { scenario with frame := 0xC03000001#36 } State.frame = some 0xC03000000#36 := by decide +kernel

/-! ### The Pulse Transmitter (95_test_vectors, section 2.2) -/

theorem test_sym0 : after .sym0 State.reset (fun t => (t.tx, t.pulseState, t.parityBit, t.line)) =
    some (.high, .low, false, [⟨.high, 2000⟩]) := by decide +kernel
theorem test_sym1 : after .sym1 State.reset (fun t => (t.tx, t.pulseState, t.parityBit, t.line)) =
    some (.low, .high, true, [⟨.high, 1000⟩, ⟨.low, 1000⟩]) := by decide +kernel
theorem test_start : after .start { State.reset with pulseState := .low, parityBit := true }
    (fun t => (t.tx, t.pulseState, t.parityBit, t.line)) = some (.low, .high, false, [⟨.low, 15000⟩]) := by decide +kernel
theorem test_emitPre : after .emitPre scenario (fun t => (t.pulseState, t.parityBit, t.line)) =
    some (.high, false, [⟨.high, 1000⟩, ⟨.low, 1000⟩, ⟨.high, 1000⟩, ⟨.low, 1000⟩, ⟨.high, 2000⟩, ⟨.low, 2000⟩]) := by decide +kernel
theorem test_emitHouse : after .emitHouse scenario (fun t => (t.pulseState, t.parityBit, t.line)) =
    some (.low, true, [⟨.high, 2000⟩, ⟨.low, 2000⟩, ⟨.high, 2000⟩, ⟨.low, 1000⟩, ⟨.high, 1000⟩]) := by decide +kernel
theorem test_emitChan : after .emitChan { scenario with pulseState := .low, parityBit := true }
    (fun t => (t.pulseState, t.parityBit, t.line)) = some (.low, true, [⟨.low, 2000⟩, ⟨.high, 2000⟩]) := by decide +kernel
theorem test_emitSep : after .emitSep { scenario with pulseState := .low, parityBit := true }
    (fun t => (t.pulseState, t.parityBit, t.line)) =
    some (.high, true, [⟨.low, 1000⟩, ⟨.high, 1000⟩, ⟨.low, 1000⟩, ⟨.high, 1000⟩, ⟨.low, 2000⟩]) := by decide +kernel
theorem test_emitHum : after .emitHum { scenario with parityBit := true } (fun t => (t.pulseState, t.parityBit, t.line)) =
    some (.high, false, [⟨.high, 2000⟩, ⟨.low, 1000⟩, ⟨.high, 1000⟩, ⟨.low, 1000⟩, ⟨.high, 1000⟩, ⟨.low, 1000⟩, ⟨.high, 1000⟩,
      ⟨.low, 2000⟩, ⟨.high, 1000⟩, ⟨.low, 1000⟩, ⟨.high, 1000⟩, ⟨.low, 1000⟩]) := by decide +kernel
theorem test_emitTemp : after .emitTemp scenario (fun t => (t.pulseState, t.parityBit, t.line)) =
    some (.low, false, [⟨.high, 2000⟩, ⟨.low, 1000⟩, ⟨.high, 1000⟩, ⟨.low, 2000⟩, ⟨.high, 2000⟩, ⟨.low, 1000⟩, ⟨.high, 1000⟩,
      ⟨.low, 2000⟩, ⟨.high, 2000⟩, ⟨.low, 1000⟩, ⟨.high, 1000⟩, ⟨.low, 1000⟩, ⟨.high, 1000⟩, ⟨.low, 2000⟩, ⟨.high, 2000⟩,
      ⟨.low, 2000⟩, ⟨.high, 2000⟩, ⟨.low, 2000⟩, ⟨.high, 2000⟩]) := by decide +kernel
/-- EMIT_PAR with the accumulator at 1 sends a whole SYM1 and clears it (R91, frame V2). -/
theorem test_emitPar_one : after .emitPar { scenario with parityBit := true } (fun t => (t.pulseState, t.parityBit, t.line)) =
    some (.high, false, [⟨.high, 1000⟩, ⟨.low, 1000⟩]) := by decide +kernel
theorem test_emitPar_zero : after .emitPar { scenario with pulseState := .low } (fun t => (t.pulseState, t.parityBit, t.line)) =
    some (.high, false, [⟨.low, 2000⟩]) := by decide +kernel
theorem test_end_high : drives .endFrame scenario = some [(.high, 500), (.low, 15000)] := by decide +kernel
/-- END's other arm (M2, M4). -/
theorem test_end_low : drives .endFrame { scenario with pulseState := .low } = some [(.low, 15000)] := by decide +kernel
/-- M7, as a function: a 1 bit that starts LOW. -/
theorem test_framed_m7 : framed Config.reference [false, true, false] =
    [⟨.low, 15000⟩, ⟨.high, 2000⟩, ⟨.low, 1000⟩, ⟨.high, 1000⟩, ⟨.low, 2000⟩, ⟨.high, 500⟩, ⟨.low, 15000⟩] := by decide +kernel
/-- Two frames of V1: 53 segments and 102500 microseconds each (R104). -/
theorem test_repeat : after .repeatFrames scenario (fun t => (t.line.length, duration t.line, t.tx, t.rep)) =
    some (106, 205000, .low, 0) := by decide +kernel

/-- M2 as a run of three steps (P6's way): START, SYM0, END. -/
theorem test_direct_program : (nextOf (Core.run Sys2Proof.core 3
      { State.reset with micro := [.stepCode 0b0000#4, .symbol 0b0#1, .stepCode 0b1000#4] })).map State.line =
    some [⟨.low, 15000⟩, ⟨.high, 2000⟩, ⟨.low, 15000⟩] := by decide +kernel

/-! ### The command and the clock -/

/-- R113's example. -/
theorem test_transmit_latches : after (.transmit 0x01 0x01 0x3B 0x0BC0) State.reset (fun t => (t.fHouse, t.fChan, t.fHum, t.fTemp)) =
    some (0b0001#4, 0b00#2, 0b0111011#7, 0b010010011000000#15) := by decide +kernel
theorem test_transmit_start_hold : after (.transmit 0x01 0x01 0x3B 0x0BC0) State.reset (fun t => (t.phase, t.rep, t.tx, t.timer)) =
    some (.run, 2, .low, 14999) := by decide +kernel
/-- A TRANSMIT word run directly is an acceptance with no edge: the host's list is not consumed, RUN, `done` cleared (entry 27). -/
theorem test_transmit_direct : (nextOf (step { idleBlock tiny [Ports.quiet] with done := true, micro := [.strobe strobed] })).map
    (fun t => (t.phase, t.done, t.host, t.fHum)) = some (.run, false, [Ports.quiet], 0b0111011#7) := by decide +kernel
/-- R133: reset wins over a strobe. -/
theorem test_reset_wins : (nextOf (step { running 1 with host := [{ strobed with rst := true }] })).map (fun t => (t.phase, t.tx, t.rep))
    = some (.idle, .low, 0) := by decide +kernel
/-- R114: with the timer spent, EMIT_HOUSE's first bit (0) is one long segment at `pulseState`. -/
theorem test_edge_next_segment : (nextOf (step (running 0))).map (fun t => (t.tx, t.timer, t.pulseState, t.bitidx)) =
    some (.high, 1, .low, 2) := by decide +kernel
/-- R137: a zero duration is refused. -/
theorem test_illegal_config : step (idleBlock { tiny with tHalf := 0 } []) = .refused .illegalConfig := rfl
/-- R5, R137: so is `CYCLES_PER_US = 0`, for an operation run directly too. -/
theorem test_illegal_config_direct : step { scenario with cfg := { tiny with cyclesPerUs := 0 }, micro := [.symbol 0b0#1] } =
    .refused .illegalConfig := rfl
/-- R131: with the switch on, house 16 is refused at acceptance. -/
theorem test_validation : exec (.transmit 16 1 0 0) (idleBlock { tiny with validate := true } []) = .refused .invalidField := rfl
/-- R65: a temperature that is no finite real is refused. -/
theorem test_not_finite : presentCall 1 1 59 .notFinite State.reset = .refused .temperatureNotFinite := rfl
/-- R112's conversion of 23.5. -/
theorem test_ports : portsOfCall 1 1 59 (47 / 2) = strobed := by decide +kernel

/-! ### Witnesses: the hypotheses of each statement can be met -/

theorem witness_FieldOperationsComposeToFrame : State.reset.frame &&& 0xF03800000#36 = 0xC03000000#36 := by decide
theorem witness_EveryFrameHasEvenParity : ∃ t, exec (.frame 1 1 59 3008) State.reset = .next t := ⟨_, rfl⟩
theorem witness_TemperatureRoundTrip : (-50 : Rat) ≤ 47 / 2 ∧ (47 / 2 : Rat) < 206
    ∧ ∃ t, exec (.encTemp (BitVec.ofInt 16 (quantise (47 / 2)))) State.reset = .next t := ⟨by norm_num, by norm_num, _, rfl⟩
theorem witness_TemperatureRoundTrip_low : (-50 : Rat) ≤ -50
    ∧ after (.encTemp (BitVec.ofInt 16 (quantise (-50)))) State.reset State.fTemp = some 0#15 := ⟨by norm_num, by decide +kernel⟩
theorem witness_TemperatureRoundTrip_high : (26367 / 128 : Rat) < 206
    ∧ after (.encTemp (BitVec.ofInt 16 (quantise (26367 / 128)))) State.reset State.fTemp = some 32767#15 :=
  ⟨by norm_num, by decide +kernel⟩
theorem witness_EndClosesAFrame : scenario.pulseState = .high ∧ ({ scenario with pulseState := .low } : State).pulseState = .low := by
  decide
theorem witness_WholeOperationsLeaveTheTimerSpent : Instr.sym0 ∈ [Instr.sym0, .sym1, .start, .emitPre, .emitHouse, .emitChan, .emitSep,
    .emitHum, .emitTemp, .emitPar, .endFrame] := by decide
theorem witness_LineOpposesPulseState : Instr.sym0 ∈ [Instr.sym0, .sym1] ∧ State.reset.tx = State.reset.pulseState.not
    ∧ ∃ t, exec .sym0 State.reset = .next t := ⟨by decide, by decide, _, rfl⟩
theorem witness_RepeatSends : Config.reference.repeats ≠ 0 ∧ ({ Config.reference with repeats := 0 } : Config).repeats = 0 := by decide
theorem witness_LineOperationsTouchOnly : Instr.endFrame ∈ [Instr.sym0, .sym1, .start, .emitPre, .emitHouse, .emitChan, .emitSep,
    .emitHum, .emitTemp, .emitPar, .endFrame] ∧ ∃ t, exec .endFrame scenario = .next t := ⟨by decide, _, rfl⟩
theorem witness_ResetEdgeOverridesEverything : configLegal (running 1).cfg = true ∧ (running 1).phase = .run
    ∧ ({ strobed with rst := true } : Ports).rst = true := by decide
theorem witness_TransmitIsAcceptedWhenIdle : State.reset.phase = .idle ∧ configLegal State.reset.cfg = true
    ∧ admits State.reset.cfg 255 0 255 0x8000 = true := by decide
theorem witness_NoOperandIsIllegal : State.reset.phase = .idle ∧ configLegal State.reset.cfg = true
    ∧ State.reset.cfg.validate = false := by decide
theorem witness_ValidationRefuses : (idleBlock { tiny with validate := true } []).phase = .idle
    ∧ configLegal { tiny with validate := true } = true
    ∧ (0 : BitVec 8).toNat < 1 ∧ 15 < (16 : BitVec 8).toNat ∧ 4 < (5 : BitVec 8).toNat ∧ 127 < (128 : BitVec 8).toNat
    ∧ (BitVec.ofInt 16 (-1)).toInt < 0 ∧ 26240 < (26241 : BitVec 16).toInt := by decide
/-- The in-range clause at both ends of every range. -/
theorem witness_ValidationAdmits : (1 : BitVec 8).toNat = 1 ∧ (15 : BitVec 8).toNat = 15 ∧ (4 : BitVec 8).toNat = 4
    ∧ (127 : BitVec 8).toNat = 127 ∧ (0 : BitVec 16).toInt = 0 ∧ (26240 : BitVec 16).toInt = 26240 := by decide
theorem witness_IllegalConfiguration : (idleBlock { tiny with tTrigger := 0 } []).micro = []
    ∧ ({ tiny with tTrigger := 0 } : Config).tTrigger = 0 ∧ ({ tiny with tShort := 0 } : Config).tShort = 0
    ∧ ({ tiny with tLong := 0 } : Config).tLong = 0 ∧ ({ tiny with tHalf := 0 } : Config).tHalf = 0
    ∧ ({ tiny with repeats := 0 } : Config).repeats = 0 ∧ ({ tiny with cyclesPerUs := 0 } : Config).cyclesPerUs = 0 := by decide
/-- The clause about a TRANSMIT word. -/
theorem witness_IllegalConfiguration_strobe :
    ({ idleBlock { tiny with repeats := 0 } [] with micro := [.strobe strobed] } : State).phase = .idle
    ∧ ({ idleBlock { tiny with repeats := 0 } [] with micro := [.strobe strobed] } : State).micro = .strobe strobed :: []
    ∧ strobed.rst = false ∧ strobed.start = true ∧ ({ tiny with repeats := 0 } : Config).repeats = 0 := by decide
theorem witness_CycleRuleIsTotal : configLegal State.reset.cfg = true ∧ State.reset.cfg.validate = false ∧ State.reset.micro = []
    ∧ (running 0).phase = .run ∧ configLegal (running 0).cfg = true := by decide
theorem witness_IdleEdge : configLegal tiny = true ∧ (idleBlock tiny [strobed]).phase = .idle ∧ (idleBlock tiny [strobed]).micro = []
    ∧ (idleBlock tiny [strobed]).host.headD Ports.quiet = strobed ∧ strobed.rst = false ∧ strobed.start = true
    ∧ (idleBlock tiny []).host.headD Ports.quiet = Ports.quiet ∧ Ports.quiet.start = false := by decide
theorem witness_InputsAreIgnoredWhileBusy : (running 1).phase = .run ∧ strobed.rst = false ∧ Ports.quiet.rst = false := by decide
theorem witness_TransmitWhileBusy : (running 1).phase = .run ∧ configLegal (running 1).cfg = true := by decide
theorem witness_HoldOnlyCountsDown : configLegal (running 1).cfg = true ∧ (running 1).phase = .run ∧ (running 1).timer ≠ 0
    ∧ ((running 1).host.headD Ports.quiet).rst = false := by decide
theorem witness_NextSegmentBegins : configLegal (running 0).cfg = true ∧ (running 0).phase = .run ∧ (running 0).timer = 0
    ∧ ((running 0).host.headD Ports.quiet).rst = false ∧ ∃ u g, (running 0).nextSeg = .seg u g := ⟨by decide, by decide, by decide, by decide, _, _, rfl⟩
/-- One state for each clause of R99's table: no frame left; START; a 0 bit; a 1 bit's first and second half; END's two arms; `Advance`
inside a field and at its end. -/
theorem witness_NextSegFollowsTheSequencerTable : scenario.rep = 0
    ∧ ({ running 0 with step := .start } : State).rep ≠ 0
    ∧ (running 0).srcBit .emitHouse 3 = false ∧ (running 0).half = false
    ∧ (running 0).srcBit .emitHouse 0 = true
    ∧ ({ running 0 with half := true } : State).half = true
    ∧ ({ running 0 with step := .endFrame } : State).pulseState = .high
    ∧ ({ running 0 with step := .endFrame, half := true } : State).half = true
    ∧ ({ running 0 with step := .endFrame, pulseState := .low } : State).pulseState = .low
    ∧ 0 < (running 0).bitidx ∧ ({ running 0 with bitidx := 0 } : State).step ≠ .endFrame := by decide
theorem witness_FinishGoesIdleWithDone : ({ running 0 with rep := 0, step := .start } : State).rep = 0 ∧ (running 0).timer = 0
    ∧ configLegal (running 0).cfg = true ∧ (running 0).phase = .run ∧ ((running 0).host.headD Ports.quiet).rst = false := by decide
/-- An idle block whose `done` is up meets the invariant, and a strobe is accepted there: the hypotheses of DoneLastsOneCycle and
EveryStepKeepsTheInvariant. -/
theorem witness_invariant_idle : State.Inv { idleBlock tiny [strobed] with done := true }
    ∧ ∃ t, step { idleBlock tiny [strobed] with done := true } = .next t :=
  ⟨⟨by decide, by decide, by decide, by decide, by decide, nofun, nofun, nofun⟩, _, rfl⟩
/-- The state an acceptance leaves meets the invariant in `RUN`. -/
theorem witness_invariant_run : State.Inv ((idleBlock tiny []).accept 0x01 0x01 0x3B 0x0BC0)
    ∧ ∃ t, step ((idleBlock tiny []).accept 0x01 0x01 0x3B 0x0BC0) = .next t := by
  refine ⟨⟨by decide +kernel, by decide +kernel, by decide +kernel, by decide +kernel, by decide +kernel, fun _ => ?_, fun _ => ?_,
    fun _ => ?_⟩, _, rfl⟩
  · unfold State.PositionOk; decide +kernel
  · unfold State.FlagsOk; decide +kernel
  · unfold State.WaveOk; decide +kernel
/-- The last wait of a transmission, after which `done` rises. -/
theorem witness_DoneLastsOneCycle : (nextOf (step { running 0 with rep := 0, step := .start })).map State.done = some true := by
  decide +kernel
theorem witness_OnlyAcceptanceWritesTheLatches : (∃ t, step (idleBlock tiny [strobed]) = .next t)
    ∧ (∃ t, step (running 1) = .next t) ∧ (idleBlock tiny [strobed]).micro = [] ∧ (running 1).phase = .run :=
  ⟨⟨_, rfl⟩, ⟨_, rfl⟩, rfl, rfl⟩
theorem witness_OnlySegmentsAndReset : ∃ t, step (running 0) = .next t ∧ t.tx ≠ (running 0).tx := ⟨_, rfl, by decide +kernel⟩
theorem witness_ConfigurationNeverChanges : ∃ t, step { scenario with micro := [.stepCode 0b0000#4] } = .next t := ⟨_, rfl⟩
theorem witness_NothingSurvives : (idleBlock tiny []).phase = .idle ∧ ({ scenario with cfg := tiny } : State).phase = .idle
    ∧ (∃ t, exec (.transmit 1 1 59 3008) (idleBlock tiny []) = .next t)
    ∧ (∃ t, exec (.transmit 1 1 59 3008) { scenario with cfg := tiny } = .next t) := ⟨rfl, rfl, ⟨_, rfl⟩, ⟨_, rfl⟩⟩
theorem witness_SequencerEmitsExactlyTransmit : ({ scenario with rep := 2 } : State).rep = scenario.cfg.repeats
    ∧ scenario.cfg.repeats ≠ 0 ∧ scenario.step = .start := by decide
/-- Every one of the nine steps has a beginning. -/
theorem witness_SequencerStepsAgree (st : Step) : State.AtStepStart { running 0 with step := st, bitidx := stepWidth st - 1 } :=
  ⟨Nat.one_ne_zero, rfl, rfl⟩
/-- The hypotheses of TransmissionCompletesOnTime and of LineCarriesTheWaveformCycleByCycle, with the first cycle in range. -/
theorem witness_TransmissionCompletes : configLegal tiny = true ∧ (idleBlock tiny [strobed, Ports.quiet]).phase = .idle
    ∧ (idleBlock tiny [strobed, Ports.quiet]).host = strobed :: [Ports.quiet] ∧ strobed.rst = false ∧ strobed.start = true
    ∧ admits tiny strobed.house strobed.channel strobed.humidity strobed.tempQ7 = true ∧ noReset [Ports.quiet]
    ∧ 0 < (cycles tiny (transmitWave tiny 1 (frameOfPorts 0x01 0x01 0x3B 0x0BC0))).length :=
  ⟨by decide, by decide, by decide, by decide, by decide, by decide, by simp [noReset, Ports.quiet], by decide +kernel⟩
theorem witness_TransmissionCompletes_reference : Config.reference.tTrigger = 15000 ∧ Config.reference.tShort = 1000
    ∧ Config.reference.tLong = 2000 ∧ Config.reference.tHalf = 500 := by decide
theorem witness_DecodeOfEncode : (Instr.frame 15 4 127 26367).wellFormed = true ∧ (Instr.transmit 255 0 255 0x8000).wellFormed = true := by
  decide
theorem witness_OnlyWellFormedFramesDecode : decode (.frame36 0xC133B4980#36) = .ok (.frame 1 1 59 3008) := by decide +kernel
/-- A wrapped operand: `house = 17` is not well formed, and its word decodes to the house it aliases. -/
theorem witness_DecodeOfEncodeHasTheSameEffect : (Instr.fieldHouse 17).wellFormed = false
    ∧ decode (encode (.fieldHouse 17)) = .ok (.fieldHouse 1) ∧ (Instr.fieldHouse 1).wellFormed = true := by decide +kernel
theorem witness_ReservedStepCodes : 9 ≤ (0b1001#4).toNat ∧ 9 ≤ (0b1111#4).toNat ∧ timingLegal State.reset.cfg = true := by decide
theorem witness_DirectStep : ({ scenario with micro := [.symbol 0b0#1] } : State).phase = .idle
    ∧ ({ scenario with micro := [.symbol 0b0#1] } : State).micro = [.symbol 0b0#1] ∧ timingLegal scenario.cfg = true
    ∧ decode (.symbol 0b0#1) = .ok .sym0 := by decide
theorem witness_PlacedTableWord : timingLegal State.reset.cfg = true ∧ decodeTableWord 36 0xC03000000 =
    some (.frame 0 1 0 (BitVec.ofInt 16 (-6400))) := by decide +kernel

end Sys2Proof.Machine
end

section
/-! PROOFS. The static configuration (spec/00_scope.md R5, spec/10_state.md R20): what each operation of the block does to `cfg`, from
the symbols up to a step, which is nothing. -/

namespace Sys2Proof.Machine

/-! ### The sequencer, an edge in `RUN` and an acceptance -/

theorem State.nextSeg_cfg (s t : State) (g : Segment) (h : s.nextSeg = .seg t g) : t.cfg = s.cfg := by
  rw [s.nextSeg_frame t g h]

@[simp] theorem State.sequence_cfg (s : State) : s.sequence.cfg = s.cfg := by
  unfold State.sequence
  split
  next t g h => exact s.nextSeg_cfg t g h
  next => rfl

@[simp] theorem State.runEdge_cfg (s : State) : s.runEdge.cfg = s.cfg := by
  unfold State.runEdge
  split
  · exact s.sequence_cfg
  · rfl

@[simp] theorem State.accept_cfg (s : State) (h c u : BitVec 8) (t : BitVec 16) : (s.accept h c u t).cfg = s.cfg :=
  State.sequence_cfg _

/-! ### The whole operations of the transmitter -/

@[simp] theorem State.emitBits_cfg (s : State) (bits : List Bool) : (s.emitBits bits).cfg = s.cfg := by
  induction bits generalizing s with
  | nil => rfl
  | cons b rest ih =>
    cases b
    · exact (ih s.sym0).trans s.sym0_cfg
    · exact (ih s.sym1).trans s.sym1_cfg

@[simp] theorem State.emitStep_cfg (s : State) (st : Step) : (s.emitStep st).cfg = s.cfg := s.emitBits_cfg _

@[simp] theorem State.endOp_cfg (s : State) : s.endOp.cfg = s.cfg := by rw [s.endOp_eq]

@[simp] theorem State.frameSequence_cfg (s : State) : s.frameSequence.cfg = s.cfg := by simp [State.frameSequence]

@[simp] theorem State.frames_cfg (s : State) (n : Nat) : (s.frames n).cfg = s.cfg := by
  induction n generalizing s with
  | zero => rfl
  | succ n ih => exact (ih _).trans s.frameSequence_cfg

/-! ### An operation and a step -/

/-- TRANSMIT answers a next state by an edge in `RUN` or by an acceptance in `IDLE` (R113, R116). -/
theorem execTransmit_cases (h c u : BitVec 8) (q : BitVec 16) (s t : State) (hn : execTransmit h c u q s = .next t) :
    (s.phase = .run ∧ t = s.runEdge) ∨
    (s.phase = .idle ∧ configLegal s.cfg = true ∧ admits s.cfg h c u q = true ∧ t = s.accept h c u q) := by
  unfold execTransmit at hn
  cases hp : s.phase with
  | run =>
    simp only [hp, Host.Outcome.next.injEq] at hn
    exact .inl ⟨rfl, hn.symm⟩
  | idle =>
    simp only [hp] at hn
    split_ifs at hn with hc ha
    exact .inr ⟨rfl, by simpa using hc, by simpa using ha, (Host.Outcome.next.inj hn).symm⟩

theorem execTransmit_cfg (h c u : BitVec 8) (q : BitVec 16) (s t : State) (hn : execTransmit h c u q s = .next t) :
    t.cfg = s.cfg := by
  rcases execTransmit_cases h c u q s t hn with ⟨_, rfl⟩ | ⟨_, _, _, rfl⟩
  · exact s.runEdge_cfg
  · exact s.accept_cfg h c u q

/-- No operation of the table writes the configuration (R5). -/
theorem exec_cfg (i : Instr) (s t : State) (h : exec i s = .next t) : t.cfg = s.cfg := by
  cases i with
  | transmit house channel humidity tempQ7 => exact execTransmit_cfg _ _ _ _ s t h
  | frame | fieldHouse | encChan | fieldHum | encTemp | parity =>
    cases h
    rfl
  | sym0 =>
    cases h
    exact s.sym0_cfg
  | sym1 =>
    cases h
    exact s.sym1_cfg
  | start =>
    cases h
    exact s.startOp_cfg
  | emitPre | emitHouse | emitChan | emitSep | emitHum | emitTemp | emitPar =>
    cases h
    exact s.emitStep_cfg _
  | endFrame =>
    cases h
    exact s.endOp_cfg
  | repeatFrames =>
    cases h
    exact (s.loadSequencer.frames_cfg _).trans s.loadSequencer_cfg

/-- An operation run directly that answers a next state is one the decoder reads, run under a legal timing (R137). -/
theorem State.direct_cases (s t : State) (cw : CodeWord) (h : s.direct cw = .next t) :
    timingLegal s.cfg = true ∧ ∃ i, decode cw = .ok i ∧ exec i s = .next t := by
  unfold State.direct at h
  split_ifs at h with ht
  refine ⟨by simpa using ht, ?_⟩
  split at h
  next i hi => exact ⟨i, hi, h⟩
  next => cases h

theorem State.direct_cfg (s t : State) (cw : CodeWord) (h : s.direct cw = .next t) : t.cfg = s.cfg := by
  obtain ⟨_, i, _, hi⟩ := s.direct_cases t cw h
  exact exec_cfg i s t hi

theorem State.edge_cfg (s t : State) (p : Ports) (h : s.edge p = .next t) : t.cfg = s.cfg := by
  obtain ⟨_, ⟨_, rfl⟩ | ⟨_, _, rfl⟩ | ⟨_, _, _, rfl⟩ | ⟨_, _, _, _, rfl⟩⟩ := s.edge_cases t p h
  · exact s.resetEdge_cfg
  · exact s.runEdge_cfg
  · rfl
  · exact State.accept_cfg _ _ _ _ _

/-- A step is a clock edge or an operation run directly (entry 5). -/
theorem step_cases (s : State) :
    step s = State.edge { s with host := s.host.tail } s.portsNow ∨
    ∃ cw rest, s.phase = .idle ∧ s.micro = cw :: rest ∧ step s = State.direct { s with micro := rest } cw := by
  by_cases h : s.phase = .run ∨ s.micro = []
  · exact .inl (step_eq_edge s h)
  · obtain ⟨hr, hm⟩ := not_or.mp h
    have hp : s.phase = .idle := by
      cases hs : s.phase
      · rfl
      · exact absurd hs hr
    obtain ⟨cw, rest, hm⟩ := List.exists_cons_of_ne_nil hm
    exact .inr ⟨cw, rest, hp, hm, step_eq_direct s cw rest hp hm⟩

theorem step_cfg (s t : State) (h : step s = .next t) : t.cfg = s.cfg := by
  rcases step_cases s with e | ⟨cw, rest, _, _, e⟩
  · exact State.edge_cfg { s with host := s.host.tail } t s.portsNow (e ▸ h)
  · exact State.direct_cfg { s with micro := rest } t cw (e ▸ h)

/-- Settles O46: a step is a clock edge or an operation run directly, and neither writes `cfg`. -/
theorem configurationNeverChanges : Obligations.ConfigurationNeverChanges := step_cfg

end Sys2Proof.Machine
end

section
/-! PROOFS. The state of the block from one step to the next (spec/10_state.md): what an edge can do, the frame bits the sequencer has
sent, what each segment of `NextSeg` does to the position, the flags and the waveform, and the invariant of Safety.lean. -/

namespace Sys2Proof.Machine

/-! ### The configuration -/

/-- What R5 asks of a configuration of the clocked block. -/
theorem configLegal_iff (c : Config) : configLegal c = true ↔
    ((1 ≤ c.tTrigger ∧ 1 ≤ c.tShort ∧ 1 ≤ c.tLong ∧ 1 ≤ c.tHalf) ∧ 1 ≤ c.cyclesPerUs) ∧ 1 ≤ c.repeats := by
  simp [configLegal, timingLegal, durationsLegal]

theorem repeats_ne_zero_of_configLegal {c : Config} (hc : configLegal c = true) : c.repeats ≠ 0 :=
  Nat.one_le_iff_ne_zero.mp ((configLegal_iff c).mp hc).2

/-! ### Positions in the frame -/

theorem stepWidth_pos {st : Step} (h1 : st ≠ .start) (h2 : st ≠ .endFrame) : 0 < stepWidth st := by
  revert h1 h2
  cases st <;> decide

/-- The frame bits before a step are those before the step ahead of it and that step's own. -/
theorem stepOffset_stepNext {st : Step} (h : st ≠ .endFrame) : stepOffset (stepNext st) = stepOffset st + stepWidth st := by
  revert h
  cases st <;> decide

theorem stepNext_ne_start {st : Step} (h : st ≠ .endFrame) : stepNext st ≠ .start := by
  revert h
  cases st <;> decide

@[simp] theorem State.advance_latchedFrame (s : State) : s.advance.latchedFrame = s.latchedFrame := by
  simp [State.latchedFrame]

@[simp] theorem State.advance_frameBits (s : State) : s.advance.frameBits = s.frameBits := by
  simp [State.frameBits]

/-- `Advance` leaves a field step for the next step or stays in it: it never goes back to START. -/
theorem State.advance_step_ne_start (s : State) (h1 : s.step ≠ .start) (h2 : s.step ≠ .endFrame) : s.advance.step ≠ .start := by
  rcases Nat.eq_zero_or_pos s.bitidx with h | h
  · rw [s.advance_last h]
    exact stepNext_ne_start h2
  · rw [s.advance_inside h]
    exact h1

/-- `Advance` keeps `bitidx` inside the field (R15). -/
theorem State.advance_bitidx_le (s : State) (hi : s.bitidx ≤ stepWidth s.step - 1) :
    s.advance.bitidx ≤ stepWidth s.advance.step - 1 := by
  rcases Nat.eq_zero_or_pos s.bitidx with h | h
  · rw [s.advance_last h]
  · rw [s.advance_inside h]
    exact (Nat.sub_le _ _).trans hi

/-- `Advance` counts one more frame bit as sent. -/
theorem State.advance_sent (s : State) (h1 : s.step ≠ .start) (h2 : s.step ≠ .endFrame) (hi : s.bitidx ≤ stepWidth s.step - 1) :
    s.advance.sent = s.sent + 1 := by
  have hw := stepWidth_pos h1 h2
  rcases Nat.eq_zero_or_pos s.bitidx with h | h
  · rw [s.advance_last h]
    simp only [State.sent, stepOffset_stepNext h2, h]
    omega
  · rw [s.advance_inside h]
    simp only [State.sent]
    omega

/-! ### The frame bits and the bit to send -/

@[simp] theorem State.frameBits_length (s : State) : s.frameBits.length = 36 := bitsMsb_length _

theorem State.frameBits_getElem? (s : State) (k : Nat) (h : k < 36) : s.frameBits[k]? = some (s.latchedFrame.getLsbD (35 - k)) :=
  bitsBelow_getElem? _ 36 k h

/-- The first 35 frame bits are the data bits. -/
theorem State.frameBits_take_data (s : State) :
    s.frameBits.take 35 = bitsMsb (dataBits s.fHouse s.fChan s.fHum s.fTemp) := by
  rw [State.frameBits, State.latchedFrame, bitsMsb_frameOfFields, List.take_left' (bitsMsb_length _)]

/-- Bit `i` of the field of a step with a fixed source stands where R40 puts it: the index counts down as the bits are sent. -/
theorem State.frameBits_field (s : State) (st : Step) (i : Nat) (h1 : st ≠ .start) (h2 : st ≠ .endFrame) (h3 : st ≠ .emitPar)
    (hi : i < stepWidth st) : s.frameBits[stepOffset st + (stepWidth st - 1 - i)]? = some (s.srcBit st i) := by
  cases st <;> simp only [stepWidth, stepOffset] at hi ⊢
  case start | endFrame | emitPar => contradiction
  all_goals
    rw [s.frameBits_getElem? _ (by omega), State.latchedFrame, frameOfFields_getLsbD, if_neg (by omega), dataBits_getLsbD]
    simp (disch := omega) only [if_neg, if_pos, State.srcBit]
    congr 2
    omega

/-- The bit `NextSeg` sends next is the frame bit after those sent; for EMIT_PAR by the accumulator law (R92). -/
theorem State.frameBits_sent (s : State) (h1 : s.step ≠ .start) (h2 : s.step ≠ .endFrame) (hi : s.bitidx ≤ stepWidth s.step - 1)
    (hp : s.parityBit = xorBits (s.frameBits.take s.sent)) : s.frameBits[s.sent]? = some (s.srcBit s.step s.bitidx) := by
  by_cases h3 : s.step = .emitPar
  · have hs : s.sent = 35 := by simp [State.sent, h3, stepOffset, stepWidth]
    rw [hs, s.frameBits_take_data] at hp
    rw [hs, s.frameBits_getElem? 35 (by decide), State.latchedFrame, frameOfFields_getLsbD, if_pos rfl, h3]
    exact congrArg some hp.symm
  · have hw := stepWidth_pos h1 h2
    exact s.frameBits_field s.step s.bitidx h1 h2 h3 (by omega)

/-- On entry to END the whole frame is sent. -/
theorem State.sent_endFrame (s : State) (h : s.step = .endFrame) : s.sent = 36 := by
  simp [State.sent, h, stepOffset, stepWidth]

theorem xorBits_take_succ {l : List Bool} {n : Nat} {b : Bool} (h : l[n]? = some b) :
    xorBits (l.take (n + 1)) = (xorBits (l.take n) ^^ b) := by
  simp [List.take_add_one, h, xorBits]

theorem syms_take_succ (c : Config) {l : List Bool} {n : Nat} {b : Bool} (h : l[n]? = some b) (p : Level) :
    (syms c (l.take (n + 1)) p).2 = (syms c [b] (syms c (l.take n) p).2).2 := by
  simp [List.take_add_one, h]

/-! ### What `NextSeg` begins -/

/-- The state in which START's hold begins (R99): the flags set and the preamble next. -/
def State.afterStart (s : State) : State :=
  { s with parityBit := false, pulseState := .high, step := .emitPre, bitidx := 3, half := false }

/-- The state after the complete symbol of a bit `b` (R81, R82): a 1 inverts the accumulator, a 0 the level of the next symbol. -/
def State.afterBit (s : State) (b : Bool) : State :=
  State.advance { s with parityBit := s.parityBit ^^ b, pulseState := (syms s.cfg [b] s.pulseState).2, half := false }

@[simp] theorem State.afterBit_half (s : State) (b : Bool) : (s.afterBit b).half = false := State.advance_half _

@[simp] theorem State.afterBit_rep (s : State) (b : Bool) : (s.afterBit b).rep = s.rep := State.advance_rep _

@[simp] theorem State.afterBit_cfg (s : State) (b : Bool) : (s.afterBit b).cfg = s.cfg := State.advance_cfg _

@[simp] theorem State.afterBit_parityBit (s : State) (b : Bool) : (s.afterBit b).parityBit = (s.parityBit ^^ b) :=
  State.advance_parityBit _

@[simp] theorem State.afterBit_pulseState (s : State) (b : Bool) :
    (s.afterBit b).pulseState = (syms s.cfg [b] s.pulseState).2 := State.advance_pulseState _

@[simp] theorem State.afterBit_latchedFrame (s : State) (b : Bool) : (s.afterBit b).latchedFrame = s.latchedFrame :=
  State.advance_latchedFrame _

@[simp] theorem State.afterBit_frameBits (s : State) (b : Bool) : (s.afterBit b).frameBits = s.frameBits :=
  State.advance_frameBits _

section FieldStep

variable {s : State} (b : Bool) (h1 : s.step ≠ .start) (h2 : s.step ≠ .endFrame)
include h1 h2

theorem State.afterBit_step_ne_start : (s.afterBit b).step ≠ .start := State.advance_step_ne_start _ h1 h2

theorem State.afterBit_sent (hi : s.bitidx ≤ stepWidth s.step - 1) : (s.afterBit b).sent = s.sent + 1 :=
  State.advance_sent _ h1 h2 hi

end FieldStep

/-- The six ways to begin a segment (R99), each with the state and the segment `NextSeg` answers. -/
inductive State.Begins (s : State) : State → Segment → Prop
  | startHold (hs : s.step = .start) :
      s.Begins s.afterStart ⟨.low, s.cfg.tTrigger⟩
  | zeroBit (h1 : s.step ≠ .start) (h2 : s.step ≠ .endFrame) (hh : s.half = false) (hb : s.srcBit s.step s.bitidx = false) :
      s.Begins (s.afterBit false) ⟨s.pulseState, s.cfg.tLong⟩
  | firstHalf (h1 : s.step ≠ .start) (h2 : s.step ≠ .endFrame) (hh : s.half = false) (hb : s.srcBit s.step s.bitidx = true) :
      s.Begins { s with half := true } ⟨s.pulseState, s.cfg.tShort⟩
  | secondHalf (h1 : s.step ≠ .start) (h2 : s.step ≠ .endFrame) (hh : s.half = true) :
      s.Begins (s.afterBit true) ⟨s.pulseState.not, s.cfg.tShort⟩
  | endPulse (hs : s.step = .endFrame) (hh : s.half = false) (hp : s.pulseState = .high) :
      s.Begins { s with half := true } ⟨.high, s.cfg.tHalf⟩
  | endHold (hs : s.step = .endFrame) (hh : s.half = true ∨ s.pulseState = .low) :
      s.Begins { s with half := false, rep := s.rep - 1, step := .start, bitidx := 0 } ⟨.low, s.cfg.tTrigger⟩

theorem State.begins_of_emitSeg {s t : State} {g : Segment} (h1 : s.step ≠ .start) (h2 : s.step ≠ .endFrame)
    (h : s.emitSeg = .seg t g) : s.Begins t g := by
  cases hh : s.half with
  | true =>
    rw [s.emitSeg_second hh] at h
    cases h
    simpa [State.afterBit, syms] using State.Begins.secondHalf h1 h2 hh
  | false =>
    cases hb : s.srcBit s.step s.bitidx with
    | true =>
      rw [s.emitSeg_one hh hb] at h
      cases h
      exact .firstHalf h1 h2 hh hb
    | false =>
      rw [s.emitSeg_zero hh hb] at h
      cases h
      simpa [State.afterBit, syms, hh] using State.Begins.zeroBit h1 h2 hh hb

theorem State.begins_of_endSeg {s t : State} {g : Segment} (hs : s.step = .endFrame) (h : s.endSeg = .seg t g) : s.Begins t g := by
  unfold State.endSeg at h
  split at h
  next hc =>
    cases h
    exact .endPulse hs hc.1 hc.2
  next hc =>
    cases h
    refine .endHold hs ?_
    cases hh : s.half <;> cases hp : s.pulseState <;> simp_all

/-- Every segment `NextSeg` answers is one of the six, with a frame left to send. -/
theorem State.begins_of_nextSeg {s t : State} {g : Segment} (h : s.nextSeg = .seg t g) : s.rep ≠ 0 ∧ s.Begins t g := by
  rcases s.nextSeg_cases with ⟨_, e⟩ | ⟨h0, hs, e⟩ | ⟨h0, h1, h2, e⟩ | ⟨h0, hs, e⟩ <;> rw [e] at h
  · cases h
  · cases h
    exact ⟨h0, .startHold hs⟩
  · exact ⟨h0, State.begins_of_emitSeg h1 h2 h⟩
  · exact ⟨h0, State.begins_of_endSeg hs h⟩

/-! ### The position (R15) -/

theorem State.Begins.positionOk {s t : State} {g : Segment} (h : s.Begins t g) (hp : s.PositionOk) (h0 : s.rep ≠ 0) :
    t.PositionOk := by
  obtain ⟨hrep, hfin, hstart, hidx⟩ := hp
  cases h with
  | startHold => exact ⟨hrep, fun e => absurd e h0, nofun, le_rfl⟩
  | firstHalf h1 => exact ⟨hrep, hfin, fun e => absurd e h1, hidx⟩
  | endPulse hs => exact ⟨hrep, hfin, fun e => absurd (hs.symm.trans e) nofun, hidx⟩
  | zeroBit h1 h2 | secondHalf h1 h2 =>
    exact ⟨by simpa using hrep, fun e => absurd (by simpa using e) h0, fun _ => s.afterBit_half _, State.advance_bitidx_le _ hidx⟩
  | endHold => exact ⟨(Nat.sub_le _ _).trans hrep, fun _ => rfl, fun _ => rfl, le_rfl⟩

/-! ### The flags and the line (R12, R92, R94, R98) -/

/-- `parityBit` and `pulseState` are what the frame bits sent so far make them (R92, R94). -/
def State.Accumulated (s : State) : Prop :=
  s.parityBit = xorBits (s.frameBits.take s.sent) ∧ s.pulseState = (syms s.cfg (s.frameBits.take s.sent) .high).2

theorem State.flagsOk_start {s : State} (h : s.step = .start) :
    s.FlagsOk ↔ s.tx = .low ∧ s.pulseState = .high ∧ s.parityBit = false := by
  rw [State.FlagsOk, if_pos h]

/-- Between two segments of a symbol, and of END, the line is at `pulseState`, and in a field step the bit in progress is a 1. -/
theorem State.flagsOk_half {s : State} (h : s.step ≠ .start) (hh : s.half = true) :
    s.FlagsOk ↔ s.Accumulated ∧ s.tx = s.pulseState ∧ (s.step ≠ .endFrame → s.frameBits[s.sent]? = some true) := by
  simp [State.FlagsOk, State.Accumulated, h, hh, and_assoc]

/-- At a symbol boundary `tx = not pulseState` (R12). -/
theorem State.flagsOk_boundary {s : State} (h : s.step ≠ .start) (hh : s.half = false) :
    s.FlagsOk ↔ s.Accumulated ∧ s.tx = s.pulseState.not := by
  simp [State.FlagsOk, State.Accumulated, h, hh, and_assoc]

theorem State.FlagsOk.accumulated {s : State} (h : s.FlagsOk) (h1 : s.step ≠ .start) : s.Accumulated := by
  cases hh : s.half with
  | true => exact ((State.flagsOk_half h1 hh).mp h).1
  | false => exact ((State.flagsOk_boundary h1 hh).mp h).1

/-- On entry to END `pulseState = HIGH` and `parityBit = 0`: the 36 bits of a frame have even parity (R94). -/
theorem State.Accumulated.endFrame {s : State} (h : s.Accumulated) (hs : s.step = .endFrame) :
    s.pulseState = .high ∧ s.parityBit = false := by
  obtain ⟨hpar, hpul⟩ := h
  have hall : s.frameBits.take s.sent = s.frameBits := by rw [s.sent_endFrame hs, List.take_of_length_le (by simp)]
  rw [hall] at hpar hpul
  exact ⟨hpul.trans (syms_frame_level _ _ _ _ _), hpar.trans (xorBits_frameOfFields _ _ _ _)⟩

/-- A complete symbol of the bit at hand carries the law over to the next one. -/
theorem State.Accumulated.afterBit {s : State} {b : Bool} (h : s.Accumulated) (h1 : s.step ≠ .start) (h2 : s.step ≠ .endFrame)
    (hi : s.bitidx ≤ stepWidth s.step - 1) (hb : s.frameBits[s.sent]? = some b) : (s.afterBit b).Accumulated := by
  obtain ⟨hpar, hpul⟩ := h
  rw [State.Accumulated, State.afterBit_sent b h1 h2 hi, s.afterBit_frameBits, xorBits_take_succ hb, syms_take_succ _ hb, ← hpar,
    s.afterBit_cfg, ← hpul]
  exact ⟨s.afterBit_parityBit b, s.afterBit_pulseState b⟩

theorem State.afterStart_flagsOk (s : State) (d : Nat) : (s.afterStart.issue ⟨.low, d⟩).FlagsOk := by
  refine (State.flagsOk_boundary ?_ ?_).mpr ?_
  · simp [State.afterStart]
  · rfl
  · exact ⟨⟨rfl, rfl⟩, rfl⟩

theorem State.afterBit_flagsOk {s : State} {b : Bool} {g : Segment} (h : s.Accumulated) (h1 : s.step ≠ .start)
    (h2 : s.step ≠ .endFrame) (hi : s.bitidx ≤ stepWidth s.step - 1) (hb : s.frameBits[s.sent]? = some b)
    (hg : g.level = (syms s.cfg [b] s.pulseState).2.not) : ((s.afterBit b).issue g).FlagsOk := by
  refine (State.flagsOk_boundary ?_ ?_).mpr ⟨h.afterBit h1 h2 hi hb, ?_⟩
  · exact State.afterBit_step_ne_start b h1 h2
  · exact s.afterBit_half b
  · simpa using hg

theorem State.Begins.flagsOk {s t : State} {g : Segment} (h : s.Begins t g) (hp : s.PositionOk) (hf : s.FlagsOk) :
    (t.issue g).FlagsOk := by
  obtain ⟨-, -, -, hidx⟩ := hp
  cases h with
  | startHold =>
    exact s.afterStart_flagsOk _
  | zeroBit h1 h2 hh hb =>
    have ha := hf.accumulated h1
    exact State.afterBit_flagsOk ha h1 h2 hidx (hb ▸ s.frameBits_sent h1 h2 hidx ha.1) (by simp [syms])
  | firstHalf h1 h2 hh hb =>
    have ha := hf.accumulated h1
    refine (State.flagsOk_half ?_ ?_).mpr ?_
    · exact h1
    · rfl
    · exact ⟨ha, rfl, fun _ => hb ▸ s.frameBits_sent h1 h2 hidx ha.1⟩
  | secondHalf h1 h2 hh =>
    obtain ⟨ha, -, hbit⟩ := (State.flagsOk_half h1 hh).mp hf
    exact State.afterBit_flagsOk ha h1 h2 hidx (hbit h2) rfl
  | endPulse hs hh hp =>
    have h1 : s.step ≠ .start := by simp [hs]
    refine (State.flagsOk_half ?_ ?_).mpr ?_
    · exact h1
    · rfl
    · exact ⟨hf.accumulated h1, hp.symm, fun h2 => absurd hs h2⟩
  | endHold hs hh =>
    obtain ⟨hpul, hpar⟩ := (hf.accumulated (by simp [hs])).endFrame hs
    refine (State.flagsOk_start ?_).mpr ?_
    · rfl
    · exact ⟨rfl, hpul, hpar⟩

/-! ### What is left of the waveform (R103) -/

theorem symsEnd_cons_false (c : Config) (bits : List Bool) (p : Level) :
    symsEnd c (false :: bits) p = ⟨p, c.tLong⟩ :: symsEnd c bits p.not := rfl

theorem symsEnd_cons_true (c : Config) (bits : List Bool) (p : Level) :
    symsEnd c (true :: bits) p = ⟨p, c.tShort⟩ :: ⟨p.not, c.tShort⟩ :: symsEnd c bits p := rfl

theorem drop_of_getElem? {α : Type} {l : List α} {n : Nat} {b : α} (h : l[n]? = some b) : l.drop n = b :: l.drop (n + 1) := by
  rw [List.drop_eq_getElem?_toList_append, h]
  rfl

theorem State.restOfFrame_start {s : State} (h : s.step = .start) :
    s.restOfFrame = ⟨.low, s.cfg.tTrigger⟩ :: symsEnd s.cfg s.frameBits .high := by
  rw [← framed_eq, State.restOfFrame, h]
  rfl

/-- At a symbol boundary, and on entry to END, the symbols of the bits not yet sent are left, then END. -/
theorem State.restOfFrame_boundary {s : State} (h1 : s.step ≠ .start) (hh : s.half = false) :
    s.restOfFrame = symsEnd s.cfg (s.frameBits.drop s.sent) s.pulseState := by
  by_cases h2 : s.step = .endFrame
  · rw [s.sent_endFrame h2, List.drop_of_length_le (by simp)]
    simp [State.restOfFrame, h2, hh, symsEnd, syms]
  · unfold State.restOfFrame
    split <;> simp_all

theorem State.restOfFrame_half {s : State} (h1 : s.step ≠ .start) (h2 : s.step ≠ .endFrame) (hh : s.half = true) :
    s.restOfFrame = ⟨s.pulseState.not, s.cfg.tShort⟩ :: symsEnd s.cfg (s.frameBits.drop (s.sent + 1)) s.pulseState := by
  unfold State.restOfFrame
  split <;> simp_all

/-- In END the half-pulse is left where none was driven and `pulseState = HIGH`, and the hold (R96). -/
theorem State.restOfFrame_endFrame {s : State} (h : s.step = .endFrame) :
    s.restOfFrame = if s.half then [⟨.low, s.cfg.tTrigger⟩] else endSegs s.cfg s.pulseState := by
  rw [State.restOfFrame, h]

theorem State.restOfFrame_afterBit (s : State) (b : Bool) (h1 : s.step ≠ .start) (h2 : s.step ≠ .endFrame)
    (hi : s.bitidx ≤ stepWidth s.step - 1) : (s.afterBit b).restOfFrame =
      symsEnd s.cfg (s.frameBits.drop (s.sent + 1)) (syms s.cfg [b] s.pulseState).2 := by
  rw [State.restOfFrame_boundary (State.afterBit_step_ne_start b h1 h2) (s.afterBit_half b), State.afterBit_sent b h1 h2 hi]
  simp

theorem State.remaining_of_rep {s : State} (h : s.rep ≠ 0) :
    s.remaining = s.restOfFrame ++ transmitWave s.cfg (s.rep - 1) s.latchedFrame := by
  rw [State.remaining, if_neg h]

/-- At START the frames still to be completed are left, whole. -/
theorem State.remaining_start {s : State} (h : s.step = .start) : s.remaining = transmitWave s.cfg s.rep s.latchedFrame := by
  unfold State.remaining State.restOfFrame
  rw [h]
  cases s.rep <;> rfl

/-- Inside a frame, what is left loses the segment that begins. -/
theorem State.remaining_cons {s t : State} {g : Segment} (h0 : s.rep ≠ 0) (hrep : t.rep = s.rep) (hcfg : t.cfg = s.cfg)
    (hlat : t.latchedFrame = s.latchedFrame) (h : s.restOfFrame = g :: t.restOfFrame) : s.remaining = g :: t.remaining := by
  rw [State.remaining_of_rep h0, State.remaining_of_rep (hrep ▸ h0), h, hrep, hcfg, hlat]
  rfl

theorem State.remaining_afterStart {s : State} (hs : s.step = .start) (h0 : s.rep ≠ 0) :
    s.remaining = ⟨.low, s.cfg.tTrigger⟩ :: s.afterStart.remaining := by
  have h1 : s.afterStart.step ≠ .start := by simp [State.afterStart]
  refine State.remaining_cons h0 rfl rfl rfl ?_
  rw [State.restOfFrame_start hs, State.restOfFrame_boundary h1 rfl]
  rfl

/-- What is left of the transmission begins with the segment that begins (R103). -/
theorem State.Begins.remaining {s t : State} {g : Segment} (h : s.Begins t g) (h0 : s.rep ≠ 0) (hp : s.PositionOk)
    (hf : s.FlagsOk) : s.remaining = g :: t.remaining := by
  obtain ⟨-, -, -, hidx⟩ := hp
  cases h with
  | startHold hs =>
    exact State.remaining_afterStart hs h0
  | zeroBit h1 h2 hh hb =>
    refine State.remaining_cons h0 (s.afterBit_rep _) (s.afterBit_cfg _) (s.afterBit_latchedFrame _) ?_
    have hbit := hb ▸ s.frameBits_sent h1 h2 hidx (hf.accumulated h1).1
    rw [State.restOfFrame_boundary h1 hh, s.restOfFrame_afterBit false h1 h2 hidx, drop_of_getElem? hbit,
      symsEnd_cons_false]
    rfl
  | firstHalf h1 h2 hh hb =>
    refine State.remaining_cons h0 rfl rfl rfl ?_
    have hbit := hb ▸ s.frameBits_sent h1 h2 hidx (hf.accumulated h1).1
    rw [State.restOfFrame_boundary h1 hh, State.restOfFrame_half (s := { s with half := true }) h1 h2 rfl, drop_of_getElem? hbit,
      symsEnd_cons_true]
    rfl
  | secondHalf h1 h2 hh =>
    refine State.remaining_cons h0 (s.afterBit_rep _) (s.afterBit_cfg _) (s.afterBit_latchedFrame _) ?_
    rw [State.restOfFrame_half h1 h2 hh, s.restOfFrame_afterBit true h1 h2 hidx]
    rfl
  | endPulse hs hh hp =>
    refine State.remaining_cons h0 rfl rfl rfl ?_
    rw [State.restOfFrame_endFrame hs, State.restOfFrame_endFrame (s := { s with half := true }) hs, hh, hp]
    rfl
  | endHold hs hh =>
    have hrest : s.restOfFrame = [⟨.low, s.cfg.tTrigger⟩] := by
      rw [State.restOfFrame_endFrame hs]
      rcases hh with hh | hh <;> simp [hh, endSegs]
    rw [State.remaining_of_rep h0, State.remaining_start rfl, hrest]
    rfl

/-! ### The invariant -/

/-- Beginning a segment keeps the position, the flags and the waveform of a transmission in progress. -/
theorem State.nextSeg_keeps {s t : State} {g : Segment} (h : s.nextSeg = .seg t g) (hp : s.PositionOk) (hf : s.FlagsOk)
    (hw : s.WaveOk) : (t.issue g).PositionOk ∧ (t.issue g).FlagsOk ∧ (t.issue g).WaveOk := by
  obtain ⟨h0, hb⟩ := State.begins_of_nextSeg h
  refine ⟨hb.positionOk hp h0, hb.flagsOk hp hf, ?_⟩
  have hr := hb.remaining h0 hp hf
  have hfr := s.nextSeg_frame t g h
  have hcfg : t.cfg = s.cfg := by rw [hfr]
  have hline : t.line = s.line := by rw [hfr]
  have hlat : t.latchedFrame = s.latchedFrame := by rw [hfr]; rfl
  calc (t.issue g).line ++ (t.issue g).remaining = (t.line ++ [g]) ++ t.remaining := rfl
    _ = s.line ++ s.remaining := by rw [hline, hr, List.append_assoc]; rfl
    _ = transmitWave s.cfg s.cfg.repeats s.latchedFrame := hw
    _ = transmitWave t.cfg t.cfg.repeats t.latchedFrame := by rw [hcfg, hlat]

/-- A segment's count of cycles fits the timer (R18). -/
theorem timer_lt_of_dur_le {c : Config} (hc : configLegal c = true) {d : Nat} (hd : d ≤ tMax c) :
    d * c.cyclesPerUs - 1 < tMax c * c.cyclesPerUs := by
  obtain ⟨⟨⟨ht, -⟩, hu⟩, -⟩ := (configLegal_iff c).mp hc
  have hmax : 1 ≤ tMax c := by simp [tMax, ht]
  have hpos : 0 < tMax c * c.cyclesPerUs := Nat.mul_pos hmax hu
  have hle := Nat.mul_le_mul_right c.cyclesPerUs hd
  omega

theorem State.nextSeg_dur_le {s t : State} {g : Segment} (h : s.nextSeg = .seg t g) : g.dur ≤ tMax s.cfg := by
  rcases s.nextSeg_segment t g h with e | e | e | e <;> simp [e, tMax]

/-- In `RUN` with no frame left the line is LOW (R98). -/
theorem State.tx_low_of_rep_zero {s : State} (hp : s.PositionOk) (hf : s.FlagsOk) (h : s.rep = 0) : s.tx = .low := by
  obtain ⟨-, hfin, -, -⟩ := hp
  exact ((State.flagsOk_start (hfin h)).mp hf).1

theorem State.Inv.resetEdge {s : State} (h : s.Inv) : s.resetEdge.Inv where
  config := h.config
  clocked := h.clocked
  timer := Nat.zero_lt_of_lt h.timer
  idle _ := ⟨rfl, rfl⟩
  busyNotDone := nofun
  position := nofun
  flags := nofun
  wave := nofun

theorem State.Inv.runEdge {s : State} (h : s.Inv) (hr : s.phase = .run) : s.runEdge.Inv := by
  obtain ⟨hc, hm, ht, -, hd, hp, hf, hw⟩ := h
  rcases s.runEdge_cases with ⟨-, e⟩ | ⟨-, t, g, hn, e⟩ | ⟨hz, h0, -, e⟩ <;> rw [e]
  · exact ⟨hc, hm, (Nat.sub_le _ _).trans_lt ht, fun hi => absurd (hr.symm.trans hi) nofun, hd, hp, hf, hw⟩
  · have hfr := s.nextSeg_frame t g hn
    have hcfg : t.cfg = s.cfg := by rw [hfr]
    have hmic : t.micro = s.micro := by rw [hfr]
    have hph : t.phase = .run := by rw [hfr]; exact hr
    have hdone : t.done = s.done := by rw [hfr]
    obtain ⟨hp', hf', hw'⟩ := State.nextSeg_keeps hn (hp hr) (hf hr) (hw hr)
    exact ⟨hcfg ▸ hc, hmic.trans hm, timer_lt_of_dur_le (hcfg ▸ hc) (hcfg ▸ State.nextSeg_dur_le hn),
      fun hi => absurd (hph.symm.trans hi) nofun, fun _ => hdone.trans (hd hr), fun _ => hp', fun _ => hf', fun _ => hw'⟩
  · exact ⟨hc, hm, ht, fun _ => ⟨State.tx_low_of_rep_zero (hp hr) (hf hr) h0, hz⟩, nofun, nofun, nofun, nofun⟩

/-- An edge of an idle block with no strobe. -/
theorem State.Inv.quietEdge {s : State} (h : s.Inv) (hi : s.phase = .idle) : State.Inv { s with done := false } := by
  obtain ⟨hc, hm, ht, hidle, -, -, -, -⟩ := h
  exact ⟨hc, hm, ht, hidle, fun _ => rfl, by simp [hi], by simp [hi], by simp [hi]⟩

/-! ### Acceptance -/

/-- The operands latched and the sequencer loaded, with START's hold still to be issued (R113). -/
def State.loaded (s : State) (h c u : BitVec 8) (q : BitVec 16) : State :=
  { (s.latch h c u q).loadSequencer with phase := .run, done := false, line := [] }

/-- The first cycle of a segment (R18, R114): its level on the line, its length in the timer, its record the last of `line`. -/
def State.BeginsSegment (s : State) : Prop :=
  ∃ g, g.level = s.tx ∧ s.timer = g.dur * s.cfg.cyclesPerUs - 1 ∧ s.phase = .run ∧ s.line.getLast? = some g

/-- Acceptance issues START's hold of the loaded sequencer (R113). -/
theorem State.accept_eq_issue (s : State) (h c u : BitVec 8) (q : BitVec 16) (hr : s.cfg.repeats ≠ 0) :
    s.accept h c u q = (s.loaded h c u q).afterStart.issue ⟨.low, s.cfg.tTrigger⟩ := by
  rw [s.accept_eq h c u q hr]
  rfl

section Accepted

variable (s : State) (h c u : BitVec 8) (q : BitVec 16) (hc : configLegal s.cfg = true)
include hc

theorem State.accept_done : (s.accept h c u q).done = false := by
  rw [s.accept_eq h c u q (repeats_ne_zero_of_configLegal hc)]

/-- An acceptance writes the four latches from its operands (R14). -/
theorem State.accept_latches : (s.accept h c u q).fHouse = houseField h ∧ (s.accept h c u q).fChan = chanField c ∧
    (s.accept h c u q).fHum = humField u ∧ (s.accept h c u q).fTemp = tempField q := by
  rw [s.accept_eq h c u q (repeats_ne_zero_of_configLegal hc)]
  exact ⟨rfl, rfl, rfl, rfl⟩

/-- An acceptance begins a segment (R17). -/
theorem State.accept_beginsSegment : (s.accept h c u q).BeginsSegment := by
  rw [s.accept_eq h c u q (repeats_ne_zero_of_configLegal hc)]
  exact ⟨⟨.low, s.cfg.tTrigger⟩, rfl, rfl, rfl, rfl⟩

/-- An acceptance leaves a safe state whatever the flags, the line and the position were. -/
theorem State.accept_inv (hm : s.micro = []) : (s.accept h c u q).Inv := by
  have hr := repeats_ne_zero_of_configLegal hc
  rw [s.accept_eq_issue h c u q hr]
  refine ⟨hc, hm, ?_, nofun, fun _ => rfl, fun _ => ⟨le_rfl, fun e => absurd e hr, nofun, le_rfl⟩,
    fun _ => (s.loaded h c u q).afterStart_flagsOk _, fun _ => ?_⟩
  · exact timer_lt_of_dur_le hc (by simp [tMax])
  · exact (State.remaining_afterStart (s := s.loaded h c u q) rfl hr).symm.trans (State.remaining_start rfl)

end Accepted

/-! ### Edges and steps of the clocked block -/

/-- Every edge from a safe state leaves a safe state. -/
theorem State.Inv.edge {s t : State} {p : Ports} (h : s.Inv) (he : s.edge p = .next t) : t.Inv := by
  obtain ⟨hc, ⟨-, rfl⟩ | ⟨-, hr, rfl⟩ | ⟨-, hi, -, rfl⟩ | ⟨-, -, -, -, rfl⟩⟩ := s.edge_cases t p he
  · exact h.resetEdge
  · exact h.runEdge hr
  · exact h.quietEdge hi
  · exact State.accept_inv _ _ _ _ _ hc h.clocked

/-- The invariant does not speak of what the host drives. -/
theorem State.Inv.withHost {s : State} (h : s.Inv) (ps : List Ports) : State.Inv { s with host := ps } :=
  ⟨h.config, h.clocked, h.timer, h.idle, h.busyNotDone, h.position, h.flags, h.wave⟩

/-- A running edge raises `done` only by `Finish`. -/
theorem State.runEdge_done (s : State) (hd : s.done = false) : s.runEdge.done = true ↔ s.timer = 0 ∧ s.rep = 0 := by
  rcases s.runEdge_cases with ⟨hz, e⟩ | ⟨-, t, g, hn, e⟩ | ⟨hz, h0, -, e⟩ <;> rw [e]
  · simp [hz, hd]
  · have hdone : t.done = s.done := by rw [s.nextSeg_frame t g hn]
    simp [hdone, hd, (State.begins_of_nextSeg hn).1]
  · simp [hz, h0]

/-- From a safe state an edge leaves `done` up exactly where it takes `Finish` (R115). -/
theorem State.Inv.edge_done {s t : State} {p : Ports} (h : s.Inv) (he : s.edge p = .next t) :
    t.done = true ↔ s.phase = .run ∧ p.rst = false ∧ s.timer = 0 ∧ s.rep = 0 := by
  obtain ⟨hc, ⟨hrst, rfl⟩ | ⟨hrst, hr, rfl⟩ | ⟨-, hi, -, rfl⟩ | ⟨-, hi, -, -, rfl⟩⟩ := s.edge_cases t p he
  · simp [hrst]
  · simp [hr, hrst, s.runEdge_done (h.busyNotDone hr)]
  · simp [hi]
  · rw [State.accept_done { s with done := false } _ _ _ _ hc]
    simp [hi]

/-- A running edge reads the latches and writes none (R14). -/
theorem State.runEdge_latches (s : State) : s.runEdge.fHouse = s.fHouse ∧ s.runEdge.fChan = s.fChan ∧
    s.runEdge.fHum = s.fHum ∧ s.runEdge.fTemp = s.fTemp := by
  rcases s.runEdge_cases with ⟨-, e⟩ | ⟨-, t, g, hn, e⟩ | ⟨-, -, -, e⟩ <;> rw [e]
  · exact ⟨rfl, rfl, rfl, rfl⟩
  · rw [s.nextSeg_frame t g hn]
    exact ⟨rfl, rfl, rfl, rfl⟩
  · exact ⟨rfl, rfl, rfl, rfl⟩

/-- A running edge moves the line only where a segment begins (R17). -/
theorem State.runEdge_beginsSegment (s : State) (hr : s.phase = .run) (hne : s.runEdge.tx ≠ s.tx) : s.runEdge.BeginsSegment := by
  rcases s.runEdge_cases with ⟨-, e⟩ | ⟨-, t, g, hn, e⟩ | ⟨-, -, -, e⟩ <;> rw [e] at hne ⊢
  · exact absurd rfl hne
  · have hph : t.phase = s.phase := by rw [s.nextSeg_frame t g hn]
    exact ⟨g, rfl, rfl, hph.trans hr, by simp⟩
  · exact absurd rfl hne

/-! ### The obligations -/

/-- Settles O52: with no direct operation pending a step is an edge, and every kind of edge keeps the invariant. -/
theorem everyStepKeepsTheInvariant : Obligations.EveryStepKeepsTheInvariant := fun s _ h hn =>
  (h.withHost s.host.tail).edge (step_eq_edge s (.inr h.clocked) ▸ hn)

/-- Settles O43: `done` rises by `Finish` alone, and it cannot be up in `RUN`, so the block is idle with the line LOW. -/
theorem doneLastsOneCycle : Obligations.DoneLastsOneCycle := by
  intro s t h hn
  have ht : t.Inv := everyStepKeepsTheInvariant s t h hn
  refine ⟨(h.withHost s.host.tail).edge_done (step_eq_edge s (.inr h.clocked) ▸ hn), fun hd => ?_⟩
  have hidle : t.phase = .idle := by
    cases hp : t.phase with
    | idle => rfl
    | run => exact absurd (ht.busyNotDone hp) (by simp [hd])
  exact ⟨hidle, (ht.idle hidle).1⟩

/-- Settles O44: of the edges, only reset and acceptance write the latches. -/
theorem onlyAcceptanceWritesTheLatches : Obligations.OnlyAcceptanceWritesTheLatches := by
  intro s t hclk hn
  obtain ⟨hc, ⟨hrst, rfl⟩ | ⟨-, -, rfl⟩ | ⟨-, -, -, rfl⟩ | ⟨hrst, hi, hs, -, rfl⟩⟩ :=
    State.edge_cases _ t s.portsNow (step_eq_edge s hclk ▸ hn)
  · exact .inr (.inl ⟨hrst, rfl, rfl, rfl, rfl⟩)
  · exact .inl (State.runEdge_latches _)
  · exact .inl ⟨rfl, rfl, rfl, rfl⟩
  · obtain ⟨hh, hch, hu, hq⟩ := State.accept_latches _ s.portsNow.house s.portsNow.channel s.portsNow.humidity
      s.portsNow.tempQ7 hc
    exact .inr (.inr ⟨hrst, hi, hs, hh ▸ houseField_toNat _, hch ▸ chanField_toNat _, hu ▸ humField_toNat _,
      hq ▸ tempField_toNat _⟩)

/-- Settles O45: of the edges, reset puts the line LOW, a running edge and an acceptance begin a segment, and the others leave it. -/
theorem onlySegmentsAndResetWriteTheLine : Obligations.OnlySegmentsAndResetWriteTheLine := by
  intro s t hclk hn hne
  rw [← step_cfg s t hn]
  obtain ⟨hc, ⟨hrst, rfl⟩ | ⟨-, hr, rfl⟩ | ⟨-, -, -, rfl⟩ | ⟨-, -, -, -, rfl⟩⟩ :=
    State.edge_cases _ t s.portsNow (step_eq_edge s hclk ▸ hn)
  · exact .inl ⟨hrst, rfl⟩
  · exact .inr (State.runEdge_beginsSegment _ hr hne)
  · exact absurd rfl hne
  · exact .inr (State.accept_beginsSegment _ _ _ _ _ hc)

/-- Settles O21: each of the three operations leaves `tx` and `pulseState` opposed, and a symbol's first segment is at `pulseState`. -/
theorem lineOpposesPulseStateAtSymbolBoundaries : Obligations.LineOpposesPulseStateAtSymbolBoundaries := by
  constructor
  · intro i s t hi hn
    simp only [List.mem_cons, List.not_mem_nil, or_false] at hi
    rcases hi with rfl | rfl | rfl <;> cases hn
    · rfl
    · simp
    · rfl
  · intro i s t hi hx hn
    have hne : s.pulseState ≠ s.tx := by simp [hx]
    simp only [List.mem_cons, List.not_mem_nil, or_false] at hi
    rcases hi with rfl | rfl <;> cases hn
    · exact ⟨_, _, s.sym0_line, hne⟩
    · exact ⟨_, _, s.sym1_line, hne⟩

/-- Settles O29: `State.reset` is written out with these values. -/
theorem resetValuesOfTheBlock : Obligations.ResetValuesOfTheBlock :=
  ⟨rfl, rfl, rfl, rfl, rfl, rfl, rfl, rfl, rfl, rfl, rfl, rfl, rfl, rfl⟩

/-- Settles O47: an acceptance writes every field of the block from the operands and the configuration. -/
theorem nothingSurvivesIntoTheNextTransmit : Obligations.NothingSurvivesIntoTheNextTransmit := by
  intro h c u q s s' t t' hi hi' hcfg hn hn'
  obtain ⟨hr, -⟩ | ⟨-, hc, -, rfl⟩ := execTransmit_cases h c u q s t hn
  · exact absurd (hi.symm.trans hr) nofun
  obtain ⟨hr, -⟩ | ⟨-, hc', -, rfl⟩ := execTransmit_cases h c u q s' t' hn'
  · exact absurd (hi'.symm.trans hr) nofun
  rw [s.accept_eq h c u q (repeats_ne_zero_of_configLegal hc), s'.accept_eq h c u q (repeats_ne_zero_of_configLegal hc'), hcfg]

/-- Settles O53: after reset the block is idle with the line LOW and the timer spent, under the reference configuration. -/
theorem resetMeetsTheInvariant : Obligations.ResetMeetsTheInvariant where
  config := by decide
  clocked := rfl
  timer := by decide
  idle _ := ⟨rfl, rfl⟩
  busyNotDone := nofun
  position := nofun
  flags := nofun
  wave := nofun

end Sys2Proof.Machine
end

section
/-! PROOFS. The encodings (spec/30_encoding.md): the fields read back from a frame, the operands read back from the fields, and
what decoding an encoded operation names. -/

namespace Sys2Proof.Machine

/-! ### The constants and the parity of a frame (R40, R50) -/

/-- `FRAME[35:32] = 1100` (R40). -/
theorem preamble_frameOfFields (h : BitVec 4) (c : BitVec 2) (u : BitVec 7) (t : BitVec 15) :
    (frameOfFields h c u t).extractLsb' 32 4 = 0b1100#4 := by
  apply BitVec.eq_of_getLsbD_eq
  intro i hi
  rw [BitVec.getLsbD_extractLsb', frameOfFields_getLsbD, if_neg (by omega), dataBits_getLsbD]
  simp (disch := omega) only [if_neg]
  rw [show 32 + i - 1 - 31 = i by omega]
  simp [hi]

/-- `FRAME[25:23] = 110` (R40). -/
theorem separator_frameOfFields (h : BitVec 4) (c : BitVec 2) (u : BitVec 7) (t : BitVec 15) :
    (frameOfFields h c u t).extractLsb' 23 3 = 0b110#3 := by
  apply BitVec.eq_of_getLsbD_eq
  intro i hi
  rw [BitVec.getLsbD_extractLsb', frameOfFields_getLsbD, if_neg (by omega), dataBits_getLsbD]
  simp (disch := omega) only [if_neg, if_pos]
  rw [show 23 + i - 1 - 22 = i by omega]
  simp [hi]

/-- `FRAME[35:1]` are the 35 data bits (R67, R68). -/
theorem dataBits_of_frameOfFields (h : BitVec 4) (c : BitVec 2) (u : BitVec 7) (t : BitVec 15) :
    (frameOfFields h c u t).extractLsb' 1 35 = dataBits h c u t := by
  apply BitVec.eq_of_getLsbD_eq
  intro i hi
  rw [BitVec.getLsbD_extractLsb', frameOfFields_getLsbD, if_neg (by omega), Nat.add_sub_cancel_left]
  simp [hi]

/-- `FRAME[0]` is 1 iff the number of 1 bits among the data bits is odd (R67). -/
theorem frameOfFields_parityBit (h : BitVec 4) (c : BitVec 2) (u : BitVec 7) (t : BitVec 15) :
    (frameOfFields h c u t).getLsbD 0 = oddOnes (msbFirst (dataBits h c u t)) := by
  rw [frameOfFields_getLsbD, if_pos rfl, parityOf, bitsMsb_eq_msbFirst, xorBits_eq_oddOnes]

theorem evenParity_iff (w : BitVec 36) : evenParity w = true ↔ oddOnes (msbFirst w) = false := by
  rw [evenParity, bitsMsb_eq_msbFirst, xorBits_eq_oddOnes, Bool.not_eq_true']

theorem evenParity_frameOfFields (h : BitVec 4) (c : BitVec 2) (u : BitVec 7) (t : BitVec 15) :
    evenParity (frameOfFields h c u t) = true := by
  rw [evenParity, xorBits_frameOfFields, Bool.not_false]

/-! ### The operands read back from the fields (R50) -/

theorem houseOfField_toNat (f : BitVec 4) : (houseOfField f).toNat = f.toNat := by revert f; decide

theorem channelOfField_toNat (f : BitVec 2) : (channelOfField f).toNat = f.toNat + 1 := by revert f; decide

theorem humidityOfField_toNat (f : BitVec 7) : (humidityOfField f).toNat = f.toNat := by revert f; decide

/-- An operand read back from a field is inside the no-wrap domain (R71). -/
theorem houseNoWrap_houseOfField (f : BitVec 4) : houseNoWrap (houseOfField f) = true := by
  rw [houseNoWrap, decide_eq_true_iff, houseOfField_toNat]
  exact Nat.le_of_lt_succ f.isLt

theorem channelNoWrap_channelOfField (f : BitVec 2) : channelNoWrap (channelOfField f) = true := by
  rw [channelNoWrap, decide_eq_true_iff, channelOfField_toNat]
  exact ⟨Nat.le_add_left 1 _, f.isLt⟩

theorem humidityNoWrap_humidityOfField (f : BitVec 7) : humidityNoWrap (humidityOfField f) = true := by
  rw [humidityNoWrap, decide_eq_true_iff, humidityOfField_toNat]
  exact Nat.le_of_lt_succ f.isLt

theorem tempNoWrap_tempOfField (f : BitVec 15) : tempNoWrap (tempOfField f) = true := by
  rw [tempNoWrap, decide_eq_true_iff, tempOfField_toInt]
  have hf := f.isLt
  omega

/-- Inside the no-wrap domain the field of an operand names that operand (R71). -/
theorem houseOfField_houseField {h : BitVec 8} (hw : houseNoWrap h = true) : houseOfField (houseField h) = h := by
  have hle : h.toNat ≤ 15 := of_decide_eq_true hw
  apply BitVec.eq_of_toNat_eq
  rw [houseOfField_toNat, houseField_toNat, Nat.mod_eq_of_lt (by omega)]

theorem channelOfField_chanField {c : BitVec 8} (hw : channelNoWrap c = true) : channelOfField (chanField c) = c := by
  have hle : 1 ≤ c.toNat ∧ c.toNat ≤ 4 := of_decide_eq_true hw
  have hf := chanField_toNat c
  apply BitVec.eq_of_toNat_eq
  rw [channelOfField_toNat]
  omega

theorem humidityOfField_humField {u : BitVec 8} (hw : humidityNoWrap u = true) : humidityOfField (humField u) = u := by
  have hle : u.toNat ≤ 127 := of_decide_eq_true hw
  apply BitVec.eq_of_toNat_eq
  rw [humidityOfField_toNat, humField_toNat, Nat.mod_eq_of_lt (by omega)]

theorem tempOfField_tempField {t : BitVec 16} (hw : tempNoWrap t = true) : tempOfField (tempField t) = t := by
  have hle : -6400 ≤ t.toInt ∧ t.toInt ≤ 26367 := of_decide_eq_true hw
  have hf := tempField_toNat t
  apply BitVec.eq_of_toInt_eq
  rw [tempOfField_toInt]
  omega

/-! ### The decoder -/

/-- FRAME with the operands that the fields of a frame word name (R50). -/
def frameInstr (w : BitVec 36) : Instr :=
  .frame (houseOfField (frameHouse w)) (channelOfField (frameChan w)) (humidityOfField (frameHum w)) (tempOfField (frameTemp w))

/-- A frame word is read where R50 calls it well formed, and then as the FRAME its fields name. -/
theorem decodeFrame_eq_ok_iff (w : BitVec 36) (i : Instr) : decodeFrame w = .ok i ↔
    (w.extractLsb' 32 4 = 0b1100#4 ∧ w.extractLsb' 23 3 = 0b110#3 ∧ evenParity w = true) ∧ frameInstr w = i := by
  unfold decodeFrame
  split_ifs with hpre hsep hpar
  · simp [hpre]
  · simp [hsep]
  · rw [Bool.not_eq_true'] at hpar
    simp [hpar]
  · rw [Bool.not_eq_true', Bool.not_eq_false] at hpar
    simp [Decidable.not_not.mp hpre, Decidable.not_not.mp hsep, hpar, frameInstr]

/-- A frame that the encoder makes is read as the FRAME of its four fields. -/
theorem decodeFrame_frameOfFields (h : BitVec 4) (c : BitVec 2) (u : BitVec 7) (t : BitVec 15) :
    decodeFrame (frameOfFields h c u t) =
      .ok (.frame (houseOfField h) (channelOfField c) (humidityOfField u) (tempOfField t)) := by
  refine (decodeFrame_eq_ok_iff _ _).mpr ⟨⟨?_, ?_, ?_⟩, ?_⟩
  · exact preamble_frameOfFields h c u t
  · exact separator_frameOfFields h c u t
  · exact evenParity_frameOfFields h c u t
  · rw [frameInstr, frameHouse_frameOfFields, frameChan_frameOfFields, frameHum_frameOfFields, frameTemp_frameOfFields]

/-- The step codes above END's are reserved (R47). -/
theorem decodeStep_reserved : ∀ code : BitVec 4, 9 ≤ code.toNat → decodeStep code = .error (.reservedStepCode code) := by
  decide

/-- A word that is no operation stops a direct step, whatever the state (U15). -/
theorem State.direct_of_decode_error (s : State) {cw : CodeWord} {e : DecodeError} (hc : timingLegal s.cfg = true)
    (h : decode cw = .error e) : s.direct cw = .refused (.undecodable e) := by
  simp [State.direct, hc, h]

/-! ### The instruction that an encoded operation names -/

/-- The instruction of a code word: an encoder operation takes the operand its field names (R50), every
other one is as it stands. -/
def namedInstr : Instr → Instr
  | .frame h c u t => .frame (houseOfField (houseField h)) (channelOfField (chanField c)) (humidityOfField (humField u))
      (tempOfField (tempField t))
  | .fieldHouse h => .fieldHouse (houseOfField (houseField h))
  | .encChan c => .encChan (channelOfField (chanField c))
  | .fieldHum u => .fieldHum (humidityOfField (humField u))
  | .encTemp t => .encTemp (tempOfField (tempField t))
  | i => i

/-- Decoding is total on encoded instructions, the wrapped operands included (R48). -/
theorem decode_encode (i : Instr) : decode (encode i) = .ok (namedInstr i) := by
  cases i with
  | frame h c u t => exact decodeFrame_frameOfFields _ _ _ _
  | fieldHouse h =>
    exact congrArg (Except.ok <| Instr.fieldHouse <| houseOfField ·) (extract_shifted (houseField h) 28 (by decide))
  | encChan c => exact congrArg (Except.ok <| Instr.encChan <| channelOfField ·) (extract_shifted (chanField c) 26 (by decide))
  | fieldHum u => exact congrArg (Except.ok <| Instr.fieldHum <| humidityOfField ·) (extract_shifted (humField u) 16 (by decide))
  | encTemp t => exact congrArg (Except.ok <| Instr.encTemp <| tempOfField ·) (extract_shifted (tempField t) 1 (by decide))
  | transmit | parity | sym0 | sym1 | start | emitPre | emitHouse | emitChan | emitSep | emitHum | emitTemp | emitPar | endFrame
  | repeatFrames => rfl

/-- What a code word names is inside the no-wrap domain (R71). -/
theorem namedInstr_wellFormed (i : Instr) : (namedInstr i).wellFormed = true := by
  cases i with
  | frame h c u t =>
    simp [namedInstr, Instr.wellFormed, houseNoWrap_houseOfField, channelNoWrap_channelOfField, humidityNoWrap_humidityOfField,
      tempNoWrap_tempOfField]
  | fieldHouse h => exact houseNoWrap_houseOfField _
  | encChan c => exact channelNoWrap_channelOfField _
  | fieldHum u => exact humidityNoWrap_humidityOfField _
  | encTemp t => exact tempNoWrap_tempOfField _
  | transmit | parity | sym0 | sym1 | start | emitPre | emitHouse | emitChan | emitSep | emitHum | emitTemp | emitPar | endFrame
  | repeatFrames => rfl

/-- Inside the no-wrap domain the operand named is the operand encoded (R71). -/
theorem namedInstr_eq_self {i : Instr} (hw : i.wellFormed = true) : namedInstr i = i := by
  cases i with
  | frame h c u t =>
    simp only [Instr.wellFormed, Bool.and_eq_true] at hw
    obtain ⟨⟨⟨hh, hc⟩, hu⟩, ht⟩ := hw
    rw [namedInstr, houseOfField_houseField hh, channelOfField_chanField hc, humidityOfField_humField hu,
      tempOfField_tempField ht]
  | fieldHouse h => exact congrArg Instr.fieldHouse (houseOfField_houseField hw)
  | encChan c => exact congrArg Instr.encChan (channelOfField_chanField hw)
  | fieldHum u => exact congrArg Instr.fieldHum (humidityOfField_humField hw)
  | encTemp t => exact congrArg Instr.encTemp (tempOfField_tempField hw)
  | transmit | parity | sym0 | sym1 | start | emitPre | emitHouse | emitChan | emitSep | emitHum | emitTemp | emitPar | endFrame
  | repeatFrames => rfl

/-- An encoder operation sees its operand through the field alone, so the operand named has the same effect (R60 to R63). -/
theorem exec_namedInstr (i : Instr) (s : State) : exec (namedInstr i) s = exec i s := by
  cases i with
  | frame h c u t =>
    simp [namedInstr, exec, execFrame, frameOfPorts, houseField_houseOfField, chanField_channelOfField, humField_humidityOfField,
      tempField_tempOfField]
  | fieldHouse h => simp [namedInstr, exec, execFieldHouse, houseField_houseOfField]
  | encChan c => simp [namedInstr, exec, execEncChan, chanField_channelOfField]
  | fieldHum u => simp [namedInstr, exec, execFieldHum, humField_humidityOfField]
  | encTemp t => simp [namedInstr, exec, execEncTemp, tempField_tempOfField]
  | transmit | parity | sym0 | sym1 | start | emitPre | emitHouse | emitChan | emitSep | emitHum | emitTemp | emitPar | endFrame
  | repeatFrames => rfl

/-! ### Acceptance of TRANSMIT (R113) -/

/-- In `IDLE` with a legal configuration TRANSMIT of admitted operands is accepted. -/
theorem execTransmit_of_admits {h c u : BitVec 8} {q : BitVec 16} {s : State} (hi : s.phase = .idle)
    (hc : configLegal s.cfg = true) (ha : admits s.cfg h c u q = true) : execTransmit h c u q s = .next (s.accept h c u q) := by
  simp [execTransmit, hi, hc, ha]

/-- With the switch of U1 off every operand is admitted (R48). -/
theorem admits_of_validate_off {cfg : Config} (hv : cfg.validate = false) (h c u : BitVec 8) (q : BitVec 16) :
    admits cfg h c u q = true := by
  simp [admits, hv]

theorem State.accept_busy (s : State) (h c u : BitVec 8) (q : BitVec 16) (hc : configLegal s.cfg = true) :
    (s.accept h c u q).busy = true := by
  rw [s.accept_eq h c u q (repeats_ne_zero_of_configLegal hc)]
  rfl

theorem State.accept_latchedFrame (s : State) (h c u : BitVec 8) (q : BitVec 16) (hc : configLegal s.cfg = true) :
    (s.accept h c u q).latchedFrame = frameOfPorts h c u q := by
  rw [s.accept_eq h c u q (repeats_ne_zero_of_configLegal hc)]
  rfl

/-! ### The obligations -/

/-- Settles O54: the word names the operand encoded, since the operand is inside the no-wrap domain. -/
theorem decodeOfEncodeIsTheInstruction : Obligations.DecodeOfEncodeIsTheInstruction := fun i hw =>
  (decode_encode i).trans (congrArg Except.ok (namedInstr_eq_self hw))

/-- Settles O60: the instruction named by the encoded word is the witness. -/
theorem decodeOfEncodeHasTheSameEffect : Obligations.DecodeOfEncodeHasTheSameEffect := fun i =>
  ⟨namedInstr i, decode_encode i, namedInstr_wellFormed i, namedInstr_eq_self, exec_namedInstr i⟩

/-- Settles O6: each field operation puts the field it latches into the frame. -/
theorem fieldOperationsFillTheirFrameBits : Obligations.FieldOperationsFillTheirFrameBits := fun operand tempQ7 s =>
  ⟨⟨_, rfl, putField_puts 28 (houseField operand) s.frame (by decide)⟩,
    ⟨_, rfl, putField_puts 26 (chanField operand) s.frame (by decide)⟩,
    ⟨_, rfl, putField_puts 16 (humField operand) s.frame (by decide)⟩,
    ⟨_, rfl, putField_puts 1 (tempField tempQ7) s.frame (by decide)⟩⟩

/-- Settles O7: FRAME leaves `frameOfFields` of the four encoded operands, and each of its parts is read back from its place. -/
theorem frameIsLaidOutAsTheFormatSays : Obligations.FrameIsLaidOutAsTheFormatSays := by
  intro house channel humidity tempQ7 s
  refine ⟨_, rfl, preamble_frameOfFields _ _ _ _, ?_, ?_, separator_frameOfFields _ _ _ _, ?_, ?_, ?_,
    frameOfFields_constants _ _ _ _, rfl⟩
  · exact (congrArg BitVec.toNat (frameHouse_frameOfFields _ _ _ _)).trans (houseField_toNat house)
  · exact (congrArg (fun f => (f.toNat : Int)) (frameChan_frameOfFields _ _ _ _)).trans (chanField_toNat channel)
  · exact (congrArg BitVec.toNat (frameHum_frameOfFields _ _ _ _)).trans (humField_toNat humidity)
  · exact (congrArg (fun f => (f.toNat : Int)) (frameTemp_frameOfFields _ _ _ _)).trans (tempField_toNat tempQ7)
  · exact (frameOfFields_parityBit _ _ _ _).trans
      (congrArg (fun b => oddOnes (msbFirst b)) (dataBits_of_frameOfFields _ _ _ _).symm)

/-- Settles O57: the decoder answers an instruction exactly on R50's well-formed frames, and it is the FRAME its fields name. -/
theorem onlyWellFormedFramesDecode : Obligations.OnlyWellFormedFramesDecode := by
  intro w
  refine ⟨⟨?_, ?_⟩, ?_, ?_⟩
  · rintro ⟨h, c, u, t, hd⟩
    obtain ⟨⟨hpre, hsep, hpar⟩, -⟩ := (decodeFrame_eq_ok_iff w _).mp hd
    exact ⟨hpre, hsep, (evenParity_iff w).mp hpar⟩
  · rintro ⟨hpre, hsep, hpar⟩
    exact ⟨_, _, _, _, (decodeFrame_eq_ok_iff w _).mpr ⟨⟨hpre, hsep, (evenParity_iff w).mpr hpar⟩, rfl⟩⟩
  · intro h c u t hd
    obtain ⟨-, he⟩ := (decodeFrame_eq_ok_iff w _).mp hd
    cases he
    exact ⟨houseOfField_toNat _, channelOfField_toNat _, humidityOfField_toNat _, tempOfField_toInt _⟩
  · intro i hd
    obtain ⟨-, he⟩ := (decodeFrame_eq_ok_iff w i).mp hd
    exact ⟨_, _, _, _, he.symm⟩

/-- Settles O32: every operand is admitted, and the acceptance latches the four encoded fields. -/
theorem noOperandIsIllegal : Obligations.NoOperandIsIllegal := by
  intro house channel humidity tempQ7 s hi hc hv
  obtain ⟨hh, hch, hu, hq⟩ := s.accept_latches house channel humidity tempQ7 hc
  refine ⟨_, execTransmit_of_admits hi hc (admits_of_validate_off hv _ _ _ _), s.accept_busy _ _ _ _ hc, ?_, ?_, ?_, ?_,
    s.accept_latchedFrame _ _ _ _ hc⟩
  · exact hh ▸ houseField_toNat house
  · exact hch ▸ chanField_toNat channel
  · exact hu ▸ humField_toNat humidity
  · exact hq ▸ tempField_toNat tempQ7

/-- The scenario frame is well formed (R50), and its fields name the scenario's operands (R68). -/
theorem decodeFrame_scenario :
    decodeFrame 0b110000010011001110110100100110000000#36 = .ok (.frame 1 1 59 3008) :=
  (decodeFrame_eq_ok_iff _ _).mpr ⟨⟨rfl, rfl, rfl⟩, rfl⟩

/-- Settles O55: a strobe, the scenario frame, the five FIELD rows, the two frame bits, the nine step codes, the sequence. -/
theorem specWordsDecode : Obligations.SpecWordsDecode :=
  ⟨rfl, decodeFrame_scenario, rfl, rfl, rfl, rfl, rfl, rfl, rfl, rfl, rfl, rfl, rfl, rfl, rfl, rfl, rfl, rfl, rfl⟩

/-- Settles O56: the decoder names the reserved code, and the step of the placed word refuses by that name. -/
theorem reservedStepCodesAreRefused : Obligations.ReservedStepCodesAreRefused := by
  intro code s hcode hc
  have hd : decode (.stepCode code) = .error (.reservedStepCode code) := decodeStep_reserved code hcode
  exact ⟨hd, (step_eq_direct _ _ _ rfl rfl).trans (State.direct_of_decode_error _ hc hd)⟩

end Sys2Proof.Machine
end

section
/-! PROOFS. The Frame Encoder's operations (spec/40_frame_encoder.md): the fields of operands reduced to their ports, the floor of
the host's conversion, the five field operations run in turn against FRAME, and the parity law. -/

namespace Sys2Proof.Machine

/-! ### The low bits of a port value -/

/-- The low bits of a port value are the value modulo their number. -/
theorem extractLsb'_zero_toNat {w : Nat} (x : BitVec w) (n : Nat) : (x.extractLsb' 0 n).toNat = x.toNat % 2 ^ n := by
  rw [BitVec.extractLsb'_toNat, Nat.shiftRight_zero]

/-- FIELD_HOUSE keeps `house[3:0]` (R60). -/
theorem houseField_eq_lowBits (h : BitVec 8) : houseField h = h.extractLsb' 0 4 :=
  BitVec.eq_of_toNat_eq ((houseField_toNat h).trans (extractLsb'_zero_toNat h 4).symm)

/-- FIELD_HUM keeps `humidity[6:0]` (R63). -/
theorem humField_eq_lowBits (u : BitVec 8) : humField u = u.extractLsb' 0 7 :=
  BitVec.eq_of_toNat_eq ((humField_toNat u).trans (extractLsb'_zero_toNat u 7).symm)

/-- ENC_CHAN depends on `channel[1:0]` alone (R61). -/
theorem chanField_toNat_of_lowBits (c : BitVec 8) :
    ((chanField c).toNat : Int) = (((c.extractLsb' 0 2).toNat : Int) - 1) % 4 := by
  rw [chanField_toNat, extractLsb'_zero_toNat]
  omega

/-- ENC_TEMP depends on the low fifteen bits of `temp_q7` alone: the sign weighs a multiple of 32768 (R62). -/
theorem tempField_toNat_of_lowBits (q : BitVec 16) :
    (tempField q).toNat = ((q.extractLsb' 0 15).toNat + 6400) % 32768 := by
  have hfield := tempField_toNat q
  have hsign := BitVec.toInt_eq_toNat_cond q
  rw [extractLsb'_zero_toNat]
  omega

/-! ### Operands reduced to their port width (R66) -/

theorem houseField_ofInt (house : Int) : ((houseField (BitVec.ofInt 8 house)).toNat : Int) = house % 16 := by
  have hport := toNat_ofInt_emod 8 house
  rw [houseField_toNat]
  omega

theorem chanField_ofInt (channel : Int) : ((chanField (BitVec.ofInt 8 channel)).toNat : Int) = (channel - 1) % 4 := by
  have hport := toNat_ofInt_emod 8 channel
  rw [chanField_toNat]
  omega

theorem humField_ofInt (humidity : Int) : ((humField (BitVec.ofInt 8 humidity)).toNat : Int) = humidity % 128 := by
  have hport := toNat_ofInt_emod 8 humidity
  rw [humField_toNat]
  omega

/-- A field is the one made from the integer it holds. -/
theorem eq_ofInt_of_toNat_eq {w : Nat} {x : BitVec w} {v : Int} (h : (x.toNat : Int) = v) : x = BitVec.ofInt w v := by
  rw [← h, BitVec.ofInt_natCast, BitVec.ofNat_toNat, BitVec.setWidth_eq]

/-- The port layer and the abstract layer define the same frame (R66). -/
theorem frameOfPorts_ofInt (house channel humidity : Int) (t : Rat) :
    frameOfPorts (BitVec.ofInt 8 house) (BitVec.ofInt 8 channel) (BitVec.ofInt 8 humidity) (BitVec.ofInt 16 (quantise t))
      = frameOfCall house channel humidity t := by
  rw [frameOfPorts, eq_ofInt_of_toNat_eq (houseField_ofInt house), eq_ofInt_of_toNat_eq (chanField_ofInt channel),
    eq_ofInt_of_toNat_eq (humField_ofInt humidity), eq_ofInt_of_toNat_eq (tempField_ofInt (quantise t))]
  rfl

/-! ### Parity (R67, R69) -/

/-- The parity of the data bits is their oddness (R67). -/
theorem parityOf_eq_oddOnes (b : BitVec 35) : parityOf b = oddOnes (msbFirst b) := by
  rw [parityOf, bitsMsb_eq_msbFirst, xorBits_eq_oddOnes]

/-- The 1 bits of a frame the encoder makes are even in number (R69). -/
theorem oddOnes_frameOfFields (h : BitVec 4) (c : BitVec 2) (u : BitVec 7) (t : BitVec 15) :
    oddOnes (msbFirst (frameOfFields h c u t)) = false :=
  (evenParity_iff _).mp (evenParity_frameOfFields h c u t)

/-! ### The host's conversion (R62, R65) -/

/-- The model rounds with the library's floor. -/
theorem quantise_eq_floor (t : Rat) : quantise t = ⌊t * 128⌋ := rfl

/-- Adding the offset in steps is adding 50 degrees before rounding, since `50 * 128 = 6400` (R62). -/
theorem quantise_add_offset (t : Rat) : quantise t + 6400 = ⌊(t + 50) * 128⌋ := by
  rw [quantise_eq_floor, show (t + 50) * 128 = t * 128 + (6400 : Int) by push_cast; ring, Int.floor_add_intCast]

/-- The no-wrap domain in steps of 1/128 degree (R71). -/
theorem quantise_noWrap {t : Rat} (hlo : -50 ≤ t) (hhi : t < 206) : -6400 ≤ quantise t ∧ quantise t < 26368 := by
  rw [quantise_eq_floor]
  constructor
  · exact Int.le_floor.mpr (by push_cast; linarith)
  · exact Int.floor_lt.mpr (by push_cast; linarith)

/-- In the no-wrap domain the field holds the quantised temperature plus the offset, unreduced (R71). -/
theorem tempField_of_noWrap {t : Rat} (hlo : -50 ≤ t) (hhi : t < 206) :
    ((tempField (BitVec.ofInt 16 (quantise t))).toNat : Int) = quantise t + 6400 := by
  obtain ⟨hqlo, hqhi⟩ := quantise_noWrap hlo hhi
  rw [tempField_ofInt, Int.emod_eq_of_lt (by omega) (by omega)]

/-- The read-back of the field differs from the temperature by what the floor cuts off, in steps of 1/128 degree (R70). -/
theorem readBack_error_eq_fract {t : Rat} (hlo : -50 ≤ t) (hhi : t < 206) :
    t - (((tempField (BitVec.ofInt 16 (quantise t))).toNat : Rat) - 6400) / 128 = Int.fract (t * 128) / 128 := by
  have hfield : ((tempField (BitVec.ofInt 16 (quantise t))).toNat : Rat) = ⌊t * 128⌋ + 6400 := by
    exact_mod_cast tempField_of_noWrap hlo hhi
  rw [hfield, Int.fract]
  ring

/-! ### The field operations in turn (R40, R67, R68) -/

/-- Bit `i` after a field is put into the frame: the field's, or the one that stood there. -/
theorem putField_getLsbD {w lo : Nat} (v : BitVec w) (old : BitVec 36) (i : Nat) (h : lo + w ≤ 36) :
    (putField old lo v).getLsbD i = if lo ≤ i ∧ i < lo + w then v.getLsbD (i - lo) else old.getLsbD i :=
  putField_puts lo v old h i

/-- Where the seven constant bits stand in a frame, a bit under the mask is that of the constants. -/
theorem getLsbD_of_constants {old : BitVec 36} (hc : old &&& 0xF03800000#36 = constantFrame) {i : Nat}
    (hm : (0xF03800000#36).getLsbD i = true) : old.getLsbD i = constantFrame.getLsbD i := by
  rw [← hc, BitVec.getLsbD_and, hm, Bool.and_true]

/-- Bits 35:32 of such a frame are the preamble (R40). -/
theorem preamble_of_constants {old : BitVec 36} (hc : old &&& 0xF03800000#36 = constantFrame) {i : Nat} (hlo : 32 ≤ i)
    (hhi : i < 36) : old.getLsbD i = (0b1100#4).getLsbD (i - 32) := by
  have hconst : ∀ j < 36, 32 ≤ j →
      (0xF03800000#36).getLsbD j = true ∧ constantFrame.getLsbD j = (0b1100#4).getLsbD (j - 32) := by decide
  obtain ⟨hm, hbit⟩ := hconst i hhi hlo
  rw [getLsbD_of_constants hc hm, hbit]

/-- Bits 25:23 of such a frame are the separator (R40). -/
theorem separator_of_constants {old : BitVec 36} (hc : old &&& 0xF03800000#36 = constantFrame) {i : Nat} (hlo : 23 ≤ i)
    (hhi : i < 26) : old.getLsbD i = (0b110#3).getLsbD (i - 23) := by
  have hconst : ∀ j < 26, 23 ≤ j →
      (0xF03800000#36).getLsbD j = true ∧ constantFrame.getLsbD j = (0b110#3).getLsbD (j - 23) := by decide
  obtain ⟨hm, hbit⟩ := hconst i hhi hlo
  rw [getLsbD_of_constants hc hm, hbit]

/-- The four fields and their parity put into a frame with the constants in place make the whole frame: each of the 36 bits belongs
to one of the seven parts of R40. -/
theorem putFields_eq_frameOfFields {old : BitVec 36} (hc : old &&& 0xF03800000#36 = constantFrame)
    (h : BitVec 4) (c : BitVec 2) (u : BitVec 7) (t : BitVec 15) :
    putField (putField (putField (putField (putField old 28 h) 26 c) 16 u) 1 t) 0 (BitVec.ofBool (parityOf (dataBits h c u t)))
      = frameOfFields h c u t := by
  apply BitVec.eq_of_getLsbD_eq
  intro i hi
  simp (disch := omega) only [putField_getLsbD, frameOfFields_getLsbD, dataBits_getLsbD]
  obtain rfl | ⟨hlo, hhi⟩ | ⟨hlo, hhi⟩ | hfield : i = 0 ∨ (23 ≤ i ∧ i < 26) ∨ (32 ≤ i ∧ i < 36)
      ∨ (1 ≤ i ∧ i < 16) ∨ (16 ≤ i ∧ i < 23) ∨ (26 ≤ i ∧ i < 28) ∨ (28 ≤ i ∧ i < 32) := by omega
  · simp
  · simp (disch := omega) only [if_pos, if_neg, Nat.sub_sub, separator_of_constants hc hlo hhi]
  · simp (disch := omega) only [if_neg, Nat.sub_sub, preamble_of_constants hc hlo hhi]
  · rcases hfield with htemp | hhum | hchan | hhouse <;> simp (disch := omega) only [if_pos, if_neg, Nat.sub_sub]

/-- The five field operations run in turn latch the four fields and leave the frame of their operands (R67, R68). -/
theorem execAll_fieldOperations (house channel humidity : BitVec 8) (tempQ7 : BitVec 16) {s : State}
    (hc : s.frame &&& 0xF03800000#36 = constantFrame) :
    execAll [.fieldHouse house, .encChan channel, .fieldHum humidity, .encTemp tempQ7, .parity] s = .next
      { s with fHouse := houseField house, fChan := chanField channel, fHum := humField humidity, fTemp := tempField tempQ7,
               frame := frameOfPorts house channel humidity tempQ7 } := by
  rw [frameOfPorts, ← putFields_eq_frameOfFields hc]
  rfl

/-! ### The obligations -/

/-- Settles O4: the field modulo 32768 from the port and from the low fifteen bits, and the floor of the host's conversion. -/
theorem temperatureFieldIsFlooredOffsetAndWrapped : Obligations.TemperatureFieldIsFlooredOffsetAndWrapped :=
  ⟨fun tempQ7 _ => ⟨_, rfl, tempField_toNat tempQ7, tempField_toNat_of_lowBits tempQ7, rfl⟩,
    fun temperature _ => ⟨_, rfl, tempField_ofInt (quantise temperature), quantise_add_offset temperature⟩⟩

/-- Settles O5: the bit put at 0 is the exclusive-or of the data bits, which is their oddness. -/
theorem parityBitIsOddnessOfDataBits : Obligations.ParityBitIsOddnessOfDataBits := fun s =>
  ⟨_, rfl, parityOf_eq_oddOnes (dataBits s.fHouse s.fChan s.fHum s.fTemp) ▸ putField_puts 0 _ s.frame (by decide), rfl⟩

/-- Settles O8: the field operations leave in the frame and in the latches the four fields of which FRAME makes its frame. -/
theorem fieldOperationsComposeToFrame : Obligations.FieldOperationsComposeToFrame :=
  fun house channel humidity tempQ7 _ hc => ⟨_, _, execAll_fieldOperations house channel humidity tempQ7 hc, rfl, rfl, rfl⟩

/-- Settles O9: both frames are made of four fields and the parity of their data bits. -/
theorem everyFrameHasEvenParity : Obligations.EveryFrameHasEvenParity := by
  constructor
  · intro house channel humidity temperature
    exact oddOnes_frameOfFields _ _ _ _
  · intro house channel humidity tempQ7 s t hexec
    cases hexec
    exact oddOnes_frameOfFields _ _ _ _

/-- Settles O10: each port width is a multiple of its field's modulus. -/
theorem portWidthsAffectNoField : Obligations.PortWidthsAffectNoField := fun house channel humidity temperature =>
  ⟨houseField_ofInt house, chanField_ofInt channel, humField_ofInt humidity, tempField_ofInt (quantise temperature),
    frameOfPorts_ofInt house channel humidity temperature⟩

/-- Settles O11: the error is the fractional part that the floor cuts off, which lies in `[0, 1)`. -/
theorem temperatureRoundTripErrorBelowOneStep : Obligations.TemperatureRoundTripErrorBelowOneStep := by
  intro temperature s t hlo hhi hexec
  cases hexec
  have hnonneg := Int.fract_nonneg (temperature * 128)
  have hlt := Int.fract_lt_one (temperature * 128)
  rw [readBack_error_eq_fract hlo hhi]
  constructor <;> linarith

/-- Settles O1: `house mod 256 mod 16` is `house mod 16`. -/
theorem houseFieldIsHouseModSixteen : Obligations.HouseFieldIsHouseModSixteen := fun house _ =>
  ⟨_, rfl, houseField_ofInt house, houseField_eq_lowBits _, rfl⟩

/-- Settles O2: the field sees the channel modulo 4 alone, through the port and through its low two bits. -/
theorem channelFieldIsChannelMinusOneModFour : Obligations.ChannelFieldIsChannelMinusOneModFour := fun channel _ =>
  ⟨_, rfl, chanField_ofInt channel, chanField_toNat_of_lowBits _, rfl⟩

/-- Settles O3: `humidity mod 256 mod 128` is `humidity mod 128`. -/
theorem humidityFieldIsHumidityModOneTwentyEight : Obligations.HumidityFieldIsHumidityModOneTwentyEight := fun humidity _ =>
  ⟨_, rfl, humField_ofInt humidity, humField_eq_lowBits _, rfl⟩

end Sys2Proof.Machine
end

section
/-! PROOFS. The Pulse Transmitter (spec/41_pulse_transmitter.md): its operations run whole, the frame they send, its count, duration and
merged levels, and the segments `NextSeg` answers for a step and for a transmission. -/

namespace Sys2Proof.Machine

/-! ### EMIT and the steps (R83 to R91, R96) -/

/-- EMIT of at least one bit leaves what R83 says. -/
theorem State.emitBits_eq_emitted (s : State) {bits : List Bool} (h : bits ≠ []) : s.emitBits bits = emitted s 0 bits := by
  rw [s.emitBits_eq bits h, xorBits_eq_oddOnes]
  rfl

/-- A field step sends at least one bit. -/
theorem State.stepBits_ne_nil (s : State) {st : Step} (h1 : st ≠ .start) (h2 : st ≠ .endFrame) : s.stepBits st ≠ [] := by
  cases st with
  | start => exact absurd rfl h1
  | endFrame => exact absurd rfl h2
  | emitPar => exact List.cons_ne_nil _ _
  | emitPre | emitHouse | emitChan | emitSep | emitHum | emitTemp => exact List.ne_nil_of_length_pos (by simp [State.stepBits])

theorem State.emitStep_eq_emitted (s : State) {st : Step} (h1 : st ≠ .start) (h2 : st ≠ .endFrame) :
    s.emitStep st = emitted s 0 (s.stepBits st) := s.emitBits_eq_emitted (s.stepBits_ne_nil h1 h2)

/-- The operation of a field step is the EMIT of the bits it sends. -/
theorem exec_stepInstr_emitStep (s : State) {st : Step} (h1 : st ≠ .start) (h2 : st ≠ .endFrame) :
    exec (stepInstr st) s = .next (s.emitStep st) := by
  cases st with
  | start => exact absurd rfl h1
  | endFrame => exact absurd rfl h2
  | _ => rfl

theorem exec_fieldStep (s : State) {st : Step} {bits : List Bool} (h1 : st ≠ .start) (h2 : st ≠ .endFrame)
    (hb : s.stepBits st = bits) : exec (stepInstr st) s = .next (emitted s 0 bits) := by
  rw [exec_stepInstr_emitStep s h1 h2, s.emitStep_eq_emitted h1 h2, hb]

/-- EMIT changes only the flags, the line and the timer. -/
theorem State.emitBits_frame (s : State) (bits : List Bool) : s.emitBits bits =
    { s with tx := (s.emitBits bits).tx, pulseState := (s.emitBits bits).pulseState, parityBit := (s.emitBits bits).parityBit,
             timer := (s.emitBits bits).timer, line := (s.emitBits bits).line } := by
  by_cases h : bits = []
  · rw [h]
    rfl
  · rw [s.emitBits_eq_emitted h]
    rfl

@[simp] theorem State.emitBits_rep (s : State) (bits : List Bool) : (s.emitBits bits).rep = s.rep := by rw [s.emitBits_frame]

@[simp] theorem State.emitBits_step (s : State) (bits : List Bool) : (s.emitBits bits).step = s.step := by rw [s.emitBits_frame]

@[simp] theorem State.emitBits_bitidx (s : State) (bits : List Bool) : (s.emitBits bits).bitidx = s.bitidx := by
  rw [s.emitBits_frame]

@[simp] theorem State.emitBits_half (s : State) (bits : List Bool) : (s.emitBits bits).half = s.half := by rw [s.emitBits_frame]

/-- The bits of a step with a fixed source are the same after an EMIT. -/
theorem State.emitBits_stepBits (s : State) (bits : List Bool) {st : Step} (h : st ≠ .emitPar) :
    (s.emitBits bits).stepBits st = s.stepBits st := by
  rw [s.emitBits_frame bits]
  cases st with
  | emitPar => exact absurd rfl h
  | _ => rfl

/-- EMIT_PAR sends the accumulator by one whole symbol (R91). -/
theorem State.emitStep_emitPar (s : State) : s.emitStep .emitPar = if s.parityBit then s.sym1 else s.sym0 := by
  unfold State.emitStep State.stepBits
  cases s.parityBit <;> rfl

/-! ### The frame sequence (R92, R94, R97, R98) -/

/-- The 35 data bits of the latched frame, in transmission order (R67). -/
def State.sentData (s : State) : List Bool := bitsMsb (dataBits s.fHouse s.fChan s.fHum s.fTemp)

theorem State.sentData_ne_nil (s : State) : s.sentData ≠ [] := List.ne_nil_of_length_pos (by simp [State.sentData])

/-- The frame is the data bits and their parity (R68). -/
theorem State.frameBits_eq_sentData (s : State) : s.frameBits = s.sentData ++ [xorBits s.sentData] :=
  bitsMsb_frameOfFields _ _ _ _

/-- The steps from EMIT_PRE to EMIT_TEMP emit the data bits. -/
theorem State.emitSteps_data (s : State) :
    (((((s.emitStep .emitPre).emitStep .emitHouse).emitStep .emitChan).emitStep .emitSep).emitStep .emitHum).emitStep .emitTemp
      = s.emitBits s.sentData := by
  have hbits : s.sentData = s.stepBits .emitPre ++ s.stepBits .emitHouse ++ s.stepBits .emitChan ++ s.stepBits .emitSep
      ++ s.stepBits .emitHum ++ s.stepBits .emitTemp := bitsMsb_dataBits _ _ _ _
  simp only [hbits, State.emitBits_append, State.emitStep, State.emitBits_stepBits, ne_eq, reduceCtorEq, not_false_eq_true]

/-- START clears the accumulator, so after the data bits it is their parity (R92). -/
theorem State.parityBit_afterData (s : State) : (s.startOp.emitBits s.sentData).parityBit = xorBits s.sentData := by
  rw [State.emitBits_eq _ _ s.sentData_ne_nil]
  exact Bool.false_xor _

/-- EMIT_PAR completes the 36 bits of the latched frame: the accumulator is its parity bit (R92). -/
theorem State.emitStep_emitPar_afterData (s : State) :
    (s.startOp.emitBits s.sentData).emitStep .emitPar = s.startOp.emitBits s.frameBits := by
  rw [s.frameBits_eq_sentData, State.emitBits_append, State.emitStep, State.stepBits, s.parityBit_afterData]

theorem execAll_throughTemp (s : State) : execAll throughTemp s = .next (s.startOp.emitBits s.sentData) :=
  congrArg Host.Outcome.next s.startOp.emitSteps_data

/-- After START the steps up to EMIT_PAR emit the 36 bits of the latched frame. -/
theorem execAll_throughPar (s : State) : execAll throughPar s = .next (s.startOp.emitBits s.frameBits) := by
  rw [← s.emitStep_emitPar_afterData]
  exact congrArg (fun t => Host.Outcome.next (State.emitStep t .emitPar)) s.startOp.emitSteps_data

theorem State.frameBits_ne_nil (s : State) : s.frameBits ≠ [] := List.ne_nil_of_length_pos (by simp)

/-- `w` driven, with the flags, the line and the spent timer as they are on entry to END and after it (R93, R94, R98). -/
def State.afterFrames (s : State) (w : Wave) : State :=
  { s with tx := .low, pulseState := .high, parityBit := false, timer := 0, line := s.line ++ w }

/-- On entry to END the frame's symbols are on the line, HIGH and LOW, and the accumulator is at 0 (R93, R94). -/
theorem State.startOp_emitBits_frameBits (s : State) :
    s.startOp.emitBits s.frameBits = s.afterFrames (⟨.low, s.cfg.tTrigger⟩ :: (syms s.cfg s.frameBits .high).1) := by
  have hlevel : (syms s.cfg s.frameBits .high).2 = .high := syms_frame_level _ _ _ _ _
  have hpar : xorBits s.frameBits = false := xorBits_frameOfFields _ _ _ _
  rw [State.emitBits_eq _ _ s.frameBits_ne_nil, State.afterFrames, List.append_cons]
  simp only [State.startOp_cfg, State.startOp_pulseState, State.startOp_parityBit, State.startOp_line, hlevel, hpar]
  rfl

/-- The waveform of a frame the encoder makes: START's hold, its symbols, END's half-pulse and hold (R94, R102). -/
theorem frameWave_frameOfFields (c : Config) (h : BitVec 4) (ch : BitVec 2) (u : BitVec 7) (t : BitVec 15) :
    frameWave c (frameOfFields h ch u t) = [⟨.low, c.tTrigger⟩] ++ (syms c (bitsMsb (frameOfFields h ch u t)) .high).1
      ++ [⟨.high, c.tHalf⟩, ⟨.low, c.tTrigger⟩] := by
  rw [frameWave, framed, syms_frame_level]
  rfl

/-- END on entry from EMIT_PAR closes the frame's waveform (R97). -/
theorem State.endOp_afterPar (s : State) :
    (s.startOp.emitBits s.frameBits).endOp = s.afterFrames (frameWave s.cfg s.latchedFrame) := by
  rw [s.startOp_emitBits_frameBits, State.endOp_eq, State.latchedFrame, frameWave_frameOfFields]
  simp [State.afterFrames, endSegs, State.frameBits, State.latchedFrame]

theorem State.frameSequence_eq (s : State) : s.frameSequence = s.afterFrames (frameWave s.cfg s.latchedFrame) := by
  rw [← s.endOp_afterPar, ← s.emitStep_emitPar_afterData]
  exact congrArg (fun t => (State.emitStep t .emitPar).endOp) s.startOp.emitSteps_data

/-- The nine steps run in turn are the frame sequence (R97). -/
theorem execAll_wholeFrame (s : State) : execAll wholeFrame s = .next s.frameSequence := rfl

/-- The counted loop of at least one frame (R100). -/
theorem State.frames_succ (s : State) (n : Nat) : s.frames (n + 1) =
    { s.afterFrames (transmitWave s.cfg (n + 1) s.latchedFrame) with rep := s.rep - (n + 1) } := by
  induction n generalizing s with
  | zero =>
    rw [State.frames, State.frames, s.frameSequence_eq]
    simp [State.afterFrames, transmitWave]
  | succ n ih =>
    rw [State.frames, s.frameSequence_eq, ih]
    simp [State.afterFrames, transmitWave, State.latchedFrame, Nat.sub_sub, Nat.add_comm 1]

/-! ### What a line operation leaves unchanged -/

/-- `t` is `s` but for the flags, the line and a spent timer. -/
def State.Drives (s t : State) : Prop :=
  t = { s with tx := t.tx, pulseState := t.pulseState, parityBit := t.parityBit, timer := 0, line := t.line }

/-- SYM0, SYM1 and the operations of the nine steps. -/
def lineOperations : List Instr :=
  [.sym0, .sym1] ++
    [Step.start, .emitPre, .emitHouse, .emitChan, .emitSep, .emitHum, .emitTemp, .emitPar, .endFrame].map stepInstr

/-- Each of the nine steps drives: START by its definition, END by `endOp_eq`, a field step by what it emits. -/
theorem exec_stepInstr_drives (st : Step) (s : State) : ∃ t, exec (stepInstr st) s = .next t ∧ s.Drives t := by
  by_cases h1 : st = .start
  · subst h1
    exact ⟨_, rfl, rfl⟩
  by_cases h2 : st = .endFrame
  · subst h2
    exact ⟨_, congrArg Host.Outcome.next s.endOp_eq, rfl⟩
  · exact ⟨_, exec_fieldStep s h1 h2 rfl, rfl⟩

/-- A line operation completes and drives the line. -/
theorem exec_lineOperation_drives {i : Instr} (hi : i ∈ lineOperations) (s : State) : ∃ t, exec i s = .next t ∧ s.Drives t := by
  rcases List.mem_append.mp hi with h | h
  · simp only [List.mem_cons, List.not_mem_nil, or_false] at h
    rcases h with rfl | rfl <;> exact ⟨_, rfl, rfl⟩
  · obtain ⟨st, -, rfl⟩ := List.mem_map.mp h
    exact exec_stepInstr_drives st s

/-! ### Counting and timing a frame (R104) -/

section EncodedFrame

variable (c : Config) (h : BitVec 4) (ch : BitVec 2) (u : BitVec 7) (t : BitVec 15)

theorem countBits_frameOfFields :
    countBits false (msbFirst (frameOfFields h ch u t)) + countBits true (msbFirst (frameOfFields h ch u t)) = 36 := by
  rw [countBits_total, ← bitsMsb_eq_msbFirst, bitsMsb_length]

/-- The 1 bits of a frame are even in number (R69). -/
theorem countBits_true_even : countBits true (msbFirst (frameOfFields h ch u t)) % 2 = 0 := by
  have hodd : ¬ countBits true (msbFirst (frameOfFields h ch u t)) % 2 = 1 :=
    of_decide_eq_false (oddOnes_frameOfFields h ch u t)
  omega

/-- So are the 0 bits. -/
theorem countBits_false_even : countBits false (msbFirst (frameOfFields h ch u t)) % 2 = 0 := by
  have htotal := countBits_frameOfFields h ch u t
  have htrue := countBits_true_even h ch u t
  omega

/-- One segment for START, one for a 0 bit, two for a 1 bit, two for END. -/
theorem frameWave_length :
    (frameWave c (frameOfFields h ch u t)).length =
      countBits false (msbFirst (frameOfFields h ch u t)) + 2 * countBits true (msbFirst (frameOfFields h ch u t)) + 3 := by
  rw [frameWave_frameOfFields, List.length_append, List.length_append, syms_length, bitsMsb_eq_msbFirst]
  simp only [List.length_cons, List.length_nil]
  omega

theorem frameWave_duration :
    duration (frameWave c (frameOfFields h ch u t)) =
      2 * c.tTrigger + c.tHalf + countBits false (msbFirst (frameOfFields h ch u t)) * c.tLong
        + 2 * countBits true (msbFirst (frameOfFields h ch u t)) * c.tShort := by
  rw [frameWave_frameOfFields, duration_append, duration_append, syms_duration, bitsMsb_eq_msbFirst]
  simp only [duration]
  omega

/-- A long pulse lasts as long as two short ones, so with the reference durations every frame lasts 102500 microseconds. -/
theorem frameWave_duration_reference :
    duration (frameWave Config.reference (frameOfFields h ch u t)) = 102500 := by
  have hcount := countBits_frameOfFields h ch u t
  rw [frameWave_duration]
  simp only [Config.reference]
  omega

end EncodedFrame

theorem duration_transmitWave (c : Config) (n : Nat) (f : BitVec 36) :
    duration (transmitWave c n f) = n * duration (frameWave c f) := by
  induction n with
  | zero => rw [Nat.zero_mul]; rfl
  | succ n ih => rw [transmitWave, duration_append, ih]; ring

/-- The scenario's frame (R68): 23.5 degrees are 3008 steps of 1/128. -/
theorem frameOfCall_scenario : frameOfCall 1 1 59 (47 / 2) = frameOfFields 1#4 0#2 59#7 9408#15 := by
  have htemp : absTemp (47 / 2) = 9408 := by
    have hfloor : ⌊(47 / 2 : Rat) * 128⌋ = 3008 := by norm_num
    rw [absTemp, quantise_eq_floor, hfloor]
    rfl
  rw [frameOfCall, htemp]
  rfl

/-- Its 0 and 1 bits. -/
theorem countBits_scenario : countBits false (msbFirst (frameOfFields 1#4 0#2 59#7 9408#15)) = 22
    ∧ countBits true (msbFirst (frameOfFields 1#4 0#2 59#7 9408#15)) = 14 := by
  simp only [← bitsMsb_eq_msbFirst, bitsMsb_frameOfFields, bitsMsb_dataBits, countBits_append, xorBits_append]
  decide

/-! ### Merging adjacent segments of one level (R9, R105) -/

/-- No two adjacent segments have the same level. -/
def Alternates (w : Wave) : Prop := (w.map Segment.level).IsChain (· ≠ ·)

theorem merge_cons_of_ne {g h : Segment} {rest t : Wave} (hr : merge rest = h :: t) (hne : g.level ≠ h.level) :
    merge (g :: rest) = g :: h :: t := by
  rw [merge, hr]
  exact if_neg hne

theorem merge_cons_of_eq {g h : Segment} {rest t : Wave} (hr : merge rest = h :: t) (he : g.level = h.level) :
    merge (g :: rest) = ⟨g.level, g.dur + h.dur⟩ :: t := by
  rw [merge, hr]
  exact if_pos he

/-- Alternating segments before a waveform stay as they are, and only what follows them is merged. -/
theorem merge_append_of_alternates {w x t : Wave} {g : Segment} (hx : merge x = g :: t) (hw : Alternates (w ++ [g])) :
    merge (w ++ x) = w ++ g :: t := by
  induction w with
  | nil => exact hx
  | cons a as ih =>
    obtain ⟨hhead, htail⟩ := List.isChain_cons.mp hw
    have hrest : merge (as ++ x) = as ++ g :: t := ih htail
    cases as with
    | nil => exact merge_cons_of_ne hrest (hhead _ rfl)
    | cons b bs => exact merge_cons_of_ne hrest (hhead _ rfl)

/-- The symbols of `bits` begin with a transition, end where the next symbol begins with one, and alternate between (R12). -/
theorem syms_levels_isChain (c : Config) (bits : List Bool) (p : Level) :
    (p.not :: (syms c bits p).1.map Segment.level ++ [(syms c bits p).2]).IsChain (· ≠ ·) := by
  induction bits generalizing p with
  | nil => exact List.isChain_pair.mpr p.not_ne
  | cons b rest ih =>
    cases b with
    | false =>
      have hrest := ih p.not
      rw [p.not_not] at hrest
      exact List.isChain_cons_cons.mpr ⟨p.not_ne, hrest⟩
    | true => exact List.isChain_cons_cons.mpr ⟨p.not_ne, List.isChain_cons_cons.mpr ⟨p.ne_not, ih p⟩⟩

section EncodedFrame

variable (c : Config) (h : BitVec 4) (ch : BitVec 2) (u : BitVec 7) (t : BitVec 15)

/-- Inside a frame the levels alternate, END's half-pulse included. -/
theorem frameWave_alternates :
    Alternates (frameWave c (frameOfFields h ch u t)) := by
  have hsyms := syms_levels_isChain c (bitsMsb (frameOfFields h ch u t)) .high
  rw [syms_frame_level] at hsyms
  rw [Alternates, frameWave_frameOfFields]
  simpa [Level.not] using hsyms.append_overlap (l₃ := [Level.low]) (List.isChain_pair.mpr Level.noConfusion) (List.cons_ne_nil _ _)

/-- A frame ends with END's hold. -/
theorem frameWave_eq_dropLast_append :
    frameWave c (frameOfFields h ch u t) = (frameWave c (frameOfFields h ch u t)).dropLast ++ [⟨.low, c.tTrigger⟩] := by
  rw [frameWave_frameOfFields, List.append_cons, List.dropLast_concat]

/-- A frame begins with START's hold. -/
theorem frameWave_eq_cons_tail (f : BitVec 36) : frameWave c f = ⟨.low, c.tTrigger⟩ :: (frameWave c f).tail := rfl

/-- The preamble's first bit is a 1, so the first rising edge is that of its first short pulse. -/
theorem frameWave_take_two :
    (frameWave c (frameOfFields h ch u t)).take 2 = [⟨.low, c.tTrigger⟩, ⟨.high, c.tShort⟩] := by
  rw [frameWave, bitsMsb_frameOfFields, bitsMsb_dataBits]
  rfl

end EncodedFrame

section Boundary

variable {w : Wave} {d : Nat} (hw : Alternates w)
include hw

/-- What follows a waveform merges with its last LOW hold alone. -/
theorem merge_append_of_last_low {x t : Wave} {e : Nat} (hlast : w = w.dropLast ++ [⟨.low, d⟩])
    (hx : merge (⟨.low, d⟩ :: x) = ⟨.low, e⟩ :: t) : merge (w ++ x) = w.dropLast ++ ⟨.low, e⟩ :: t := by
  have hlevels : Alternates (w.dropLast ++ [⟨.low, e⟩]) := by
    rw [hlast] at hw
    simpa [Alternates] using hw
  calc merge (w ++ x) = merge (w.dropLast ++ ⟨.low, d⟩ :: x) := by
        rw [List.append_cons, ← hlast]
    _ = w.dropLast ++ ⟨.low, e⟩ :: t := merge_append_of_alternates hx hlevels

theorem merge_of_last_low (hlast : w = w.dropLast ++ [⟨.low, d⟩]) : merge w = w := by
  have hself := merge_append_of_last_low hw (x := []) hlast rfl
  rwa [List.append_nil, ← hlast] at hself

end Boundary

/-! ### The segments of a step (R99 against R80 to R96) -/

theorem State.nextSeg_start {s : State} (h : s.rep ≠ 0) (hs : s.step = .start) :
    s.nextSeg = .seg s.afterStart ⟨.low, s.cfg.tTrigger⟩ := by
  simp only [State.nextSeg, if_neg h, hs]
  rfl

theorem State.nextSeg_end {s : State} (h : s.rep ≠ 0) (hs : s.step = .endFrame) : s.nextSeg = s.endSeg := by
  simp only [State.nextSeg, if_neg h, hs]

theorem State.nextSeg_endPulse {s : State} (h : s.rep ≠ 0) (hs : s.step = .endFrame) (hh : s.half = false)
    (hp : s.pulseState = .high) : s.nextSeg = .seg { s with half := true } ⟨.high, s.cfg.tHalf⟩ :=
  (State.nextSeg_end h hs).trans (if_pos ⟨hh, hp⟩)

theorem State.nextSeg_endHold {s : State} (h : s.rep ≠ 0) (hs : s.step = .endFrame) (hh : s.half = true ∨ s.pulseState = .low) :
    s.nextSeg = .seg { s with half := false, rep := s.rep - 1, step := .start, bitidx := 0 } ⟨.low, s.cfg.tTrigger⟩ := by
  refine (State.nextSeg_end h hs).trans (if_neg ?_)
  rintro ⟨hf, hp⟩
  rcases hh with hh | hh
  · exact Bool.noConfusion (hf.symm.trans hh)
  · exact Level.noConfusion (hp.symm.trans hh)

/-- The "else 0" of `Advance` out of EMIT_PAR is `width(END) - 1` over the naturals (R99). -/
theorem stepWidth_stepNext_emitPar (st : Step) :
    (if st = .emitPar then 0 else stepWidth (stepNext st) - 1) = stepWidth (stepNext st) - 1 := by
  cases st <;> rfl

/-- The bits a step sends from index `n - 1` down (R83, R99). -/
def State.bitsFrom (s : State) (st : Step) : Nat → List Bool
  | 0 => []
  | n + 1 => s.srcBit st n :: s.bitsFrom st n

/-- A step sends its source at its width, from the highest index down. -/
theorem State.stepBits_eq_bitsFrom (s : State) (st : Step) : s.stepBits st = s.bitsFrom st (stepWidth st) := by
  cases st <;> rfl

/-- The sequencer moved to bit `k` of its step. -/
def State.atBit (s : State) (k : Nat) : State := { s with bitidx := k }

@[simp] theorem State.atBit_rep (s : State) (k : Nat) : (s.atBit k).rep = s.rep := rfl
@[simp] theorem State.atBit_step (s : State) (k : Nat) : (s.atBit k).step = s.step := rfl
@[simp] theorem State.atBit_bitidx (s : State) (k : Nat) : (s.atBit k).bitidx = k := rfl
@[simp] theorem State.atBit_half (s : State) (k : Nat) : (s.atBit k).half = s.half := rfl

/-- Inside a field `Advance` moves to the bit below. -/
theorem State.advance_eq_atBit {s : State} {n : Nat} (hi : s.bitidx = n + 1) : s.advance = s.atBit n := by
  rw [s.advance_inside (by omega), hi]
  rfl

/-- The bits of a step with a fixed source are the same after an EMIT, wherever the index stands. -/
theorem State.emitBits_bitsFrom (s : State) (bits : List Bool) (k : Nat) {st : Step} (h : st ≠ .emitPar) (n : Nat) :
    ((s.emitBits bits).atBit k).bitsFrom st n = s.bitsFrom st n := by
  have hsrc : ∀ i, ((s.emitBits bits).atBit k).srcBit st i = s.srcBit st i := by
    intro i
    rw [s.emitBits_frame bits]
    cases st with
    | emitPar => exact absurd rfl h
    | _ => rfl
  induction n with
  | zero => rfl
  | succ n ih => rw [State.bitsFrom, State.bitsFrom, hsrc, ih]

/-- The number of segments of the symbols of `bits`: one for a 0, two for a 1. -/
def segmentCount (bits : List Bool) : Nat := countBits false bits + 2 * countBits true bits

theorem segmentCount_cons (b : Bool) (bits : List Bool) : segmentCount (b :: bits) = segmentCount [b] + segmentCount bits := by
  rw [← List.singleton_append, segmentCount, countBits_append, countBits_append, segmentCount, segmentCount]
  omega

theorem State.emitBits_line_length (s : State) (bits : List Bool) :
    (s.emitBits bits).line.length - s.line.length = segmentCount bits := by
  by_cases h : bits = []
  · rw [h]
    exact Nat.sub_self _
  · rw [s.emitBits_eq bits h, List.length_append, syms_length, Nat.add_sub_cancel_left, segmentCount]

/-- The calls of `NextSeg` for one bit do what EMIT of that bit does, and the position advances. -/
theorem State.segments_bit {s : State} {b : Bool} (h0 : s.rep ≠ 0) (h1 : s.step ≠ .start) (h2 : s.step ≠ .endFrame)
    (hh : s.half = false) (hb : s.srcBit s.step s.bitidx = b) :
    State.segments (segmentCount [b]) s = some (s.emitBits [b]).advance := by
  have hsym := s.segments_symbol h0 h1 h2 hh
  rw [hb] at hsym
  cases b <;> exact hsym

/-- EMIT neither reads nor writes the index, so the next step's position does not depend on it. -/
theorem State.emitBits_atNextStep (s : State) (k : Nat) {bits : List Bool} (h : bits ≠ []) :
    ((s.atBit k).emitBits bits).atNextStep = (s.emitBits bits).atNextStep := by
  rw [State.emitBits_eq_emitted _ h, State.emitBits_eq_emitted _ h]
  rfl

/-- After the last bit of a field, `Advance` moves on to the next step. -/
theorem State.advance_eq_atNextStep {s : State} (h2 : s.step ≠ .endFrame) (hh : s.half = false) (hi : s.bitidx = 0) :
    s.advance = s.atNextStep := by
  rw [s.advance_last hi, State.atNextStep, if_neg h2, ← hh]

/-- `NextSeg` from a symbol boundary inside a field step sends the bits from the index down and leaves the flags, the line and the
waveform as EMIT does, the position moved on to the next step. -/
theorem State.segments_bitsFrom (n : Nat) (s : State) (h0 : s.rep ≠ 0) (h1 : s.step ≠ .start) (h2 : s.step ≠ .endFrame)
    (hh : s.half = false) (hi : s.bitidx = n) (hpar : s.step = .emitPar → n = 0) :
    State.segments (segmentCount (s.bitsFrom s.step (n + 1))) s = some (s.emitBits (s.bitsFrom s.step (n + 1))).atNextStep := by
  induction n generalizing s with
  | zero =>
    rw [State.bitsFrom, State.bitsFrom, State.segments_bit h0 h1 h2 hh (by rw [hi]), State.advance_eq_atNextStep]
    · simpa using h2
    · simpa using hh
    · simpa using hi
  | succ n ih =>
    have hfixed : s.step ≠ .emitPar := fun e => Nat.succ_ne_zero n (hpar e)
    have hidx : (s.emitBits [s.srcBit s.step (n + 1)]).bitidx = n + 1 := by simpa using hi
    have hrest := ih ((s.emitBits [s.srcBit s.step (n + 1)]).atBit n) (by simpa using h0) (by simpa using h1) (by simpa using h2)
      (by simpa using hh) rfl (fun e => absurd (by simpa using e) hfixed)
    simp only [State.atBit_step, State.emitBits_step, s.emitBits_bitsFrom _ n hfixed] at hrest
    rw [State.emitBits_atNextStep (bits := s.bitsFrom s.step (n + 1)) _ n (List.cons_ne_nil _ _), ← State.emitBits_append] at hrest
    rw [State.bitsFrom, segmentCount_cons, State.segments_add _ _ _ _ (State.segments_bit h0 h1 h2 hh (by rw [hi])),
      State.advance_eq_atBit hidx]
    exact hrest

/-- START's hold is one segment (R80). -/
theorem State.segments_start {s : State} (h0 : s.rep ≠ 0) (hs : s.step = .start) :
    State.segments 1 s = some s.startOp.atNextStep := by
  rw [State.segments_one _ _ _ (State.nextSeg_start h0 hs), State.atNextStep, s.startOp_step, hs, if_neg nofun]
  rfl

/-- END is the half-pulse and the hold where `pulseState = HIGH`, and the hold alone where it is LOW (R96). -/
theorem State.segments_end {s : State} (h0 : s.rep ≠ 0) (hs : s.step = .endFrame) (hh : s.half = false) :
    State.segments (endSegs s.cfg s.pulseState).length s = some s.endOp.atNextStep := by
  rw [s.endOp_eq]
  cases hp : s.pulseState with
  | low =>
    have hhold := State.nextSeg_endHold h0 hs (.inr hp)
    rw [show (endSegs s.cfg .low).length = 1 from rfl, State.segments_one _ _ _ hhold]
    simp [State.atNextStep, hs, hp, State.issue, State.elapse, endSegs, stepNext, stepWidth]
  | high =>
    have hpulse := State.segments_one _ _ _ (State.nextSeg_endPulse h0 hs hh hp)
    have hhold := State.nextSeg_endHold (s := (State.issue { s with half := true } ⟨.high, s.cfg.tHalf⟩).elapse) h0 hs (.inl rfl)
    rw [show (endSegs s.cfg .high).length = 1 + 1 from rfl, State.segments_add _ _ _ _ hpulse, State.segments_one _ _ _ hhold]
    simp [State.atNextStep, hs, hp, State.issue, State.elapse, endSegs, stepNext, stepWidth]

/-- A field step is the segments of its bits' symbols (R83). -/
theorem State.segments_fieldStep {s : State} (h : s.AtStepStart) (h1 : s.step ≠ .start) (h2 : s.step ≠ .endFrame) :
    State.segments (segmentCount (s.stepBits s.step)) s = some (s.emitStep s.step).atNextStep := by
  obtain ⟨h0, hh, hi⟩ := h
  have hwidth : stepWidth s.step = stepWidth s.step - 1 + 1 := (Nat.sub_add_cancel (stepWidth_pos h1 h2)).symm
  rw [State.emitStep, s.stepBits_eq_bitsFrom, hwidth]
  exact s.segments_bitsFrom _ h0 h1 h2 hh hi fun e => by rw [e]; rfl

/-! ### The segments of a transmission (R103) -/

/-- With a frame left `NextSeg` answers a segment. -/
theorem State.exists_nextSeg {s : State} (h : s.rep ≠ 0) : ∃ t g, s.nextSeg = .seg t g := by
  rcases s.nextSeg_cases with ⟨h0, -⟩ | ⟨-, -, e⟩ | ⟨-, -, -, e⟩ | ⟨-, -, e⟩
  · exact absurd h0 h
  · exact ⟨_, _, e⟩
  · rw [e, State.emitSeg]
    split_ifs <;> exact ⟨_, _, rfl⟩
  · rw [e, State.endSeg]
    split_ifs <;> exact ⟨_, _, rfl⟩

/-- From a safe position `NextSeg` answers the segments that are left, one after the other, and then `Finish`. -/
theorem State.segments_remaining (w : Wave) (s : State) (hw : s.remaining = w) (hp : s.PositionOk) (hf : s.FlagsOk) :
    ∃ t, State.segments w.length s = some t ∧ t.line = s.line ++ w ∧ t.nextSeg = .finish := by
  induction w generalizing s with
  | nil =>
    refine ⟨s, rfl, (List.append_nil _).symm, ?_⟩
    by_contra hne
    have h0 : s.rep ≠ 0 := fun h0 => hne (if_pos h0)
    obtain ⟨t, g, hn⟩ := State.exists_nextSeg h0
    exact List.cons_ne_nil _ _ (((State.begins_of_nextSeg hn).2.remaining h0 hp hf).symm.trans hw)
  | cons g w ih =>
    have h0 : s.rep ≠ 0 := fun h0 => List.cons_ne_nil _ _ (hw.symm.trans (if_pos h0))
    obtain ⟨t, g', hn⟩ := State.exists_nextSeg h0
    have hb := (State.begins_of_nextSeg hn).2
    obtain ⟨rfl, hrest⟩ := List.cons.inj ((hb.remaining h0 hp hf).symm.trans hw)
    obtain ⟨u, hu, hline, hfin⟩ := ih (t.issue g').elapse hrest (hb.positionOk hp h0) (hb.flagsOk hp hf)
    have htline : t.line = s.line := by rw [s.nextSeg_frame t g' hn]
    refine ⟨u, ?_, ?_, hfin⟩
    · rw [List.length_cons, State.segments, hn]
      exact hu
    · rw [hline]
      simp [htline]

/-! ### The obligations -/

/-- Settles O16: the bits a step with a fixed source sends are those of its field, most significant first. -/
theorem fieldStepsSendTheirBitsMsbFirst : Obligations.FieldStepsSendTheirBitsMsbFirst := fun s =>
  ⟨⟨_, exec_fieldStep (st := .emitPre) s nofun nofun rfl, rfl⟩,
    ⟨_, exec_fieldStep (st := .emitHouse) s nofun nofun (bitsMsb_eq_msbFirst _), rfl⟩,
    ⟨_, exec_fieldStep (st := .emitChan) s nofun nofun (bitsMsb_eq_msbFirst _), rfl⟩,
    ⟨_, exec_fieldStep (st := .emitSep) s nofun nofun rfl, rfl⟩,
    ⟨_, exec_fieldStep (st := .emitHum) s nofun nofun (bitsMsb_eq_msbFirst _), rfl⟩,
    ⟨_, exec_fieldStep (st := .emitTemp) s nofun nofun (bitsMsb_eq_msbFirst _), rfl⟩⟩

/-- Settles O22: START clears the accumulator, each step takes the exclusive-or of its bits into it, and EMIT_PAR sends it. -/
theorem accumulatorIsParityOfTheThirtyFiveBits : Obligations.AccumulatorIsParityOfTheThirtyFiveBits := by
  intro s
  refine ⟨_, _, execAll_throughTemp s, ?_, rfl, ?_⟩
  · rw [s.parityBit_afterData, xorBits_eq_oddOnes, State.sentData, bitsMsb_eq_msbFirst]
    rfl
  · rw [s.emitStep_emitPar_afterData, s.startOp_emitBits_frameBits, State.frameBits, bitsMsb_eq_msbFirst]
    rfl

/-- Settles O23: the 36 bits of a frame are even in length and in parity, so the level returns to that of START. -/
theorem highAndLowOnEntryToEnd : Obligations.HighAndLowOnEntryToEnd := fun s =>
  ⟨_, (execAll_throughPar s).trans (congrArg Host.Outcome.next s.startOp_emitBits_frameBits), rfl, rfl⟩

/-- Settles O24: the nine steps in turn are the frame sequence. -/
theorem frameSequenceSendsOneFrame : Obligations.FrameSequenceSendsOneFrame := fun s =>
  ⟨_, (execAll_wholeFrame s).trans (congrArg Host.Outcome.next s.frameSequence_eq), rfl⟩

/-- Settles O25: with `REPEATS = 0` the loop is not entered; otherwise it sends that many frames and counts `rep` to 0. -/
theorem repeatSendsTheFrameRepeatsTimes : Obligations.RepeatSendsTheFrameRepeatsTimes := by
  intro s
  refine ⟨_, rfl, ?_⟩
  cases hr : s.cfg.repeats with
  | zero => simp [State.frames, State.loadSequencer, transmitWave, hr]
  | succ n =>
    rw [State.frames_succ]
    simp [State.afterFrames, State.loadSequencer, State.latchedFrame, hr]

/-- Settles O26: a line operation completes in one state, which differs only in what it drives. -/
theorem lineOperationsTouchOnlyTheLineAndFlags : Obligations.LineOperationsTouchOnlyTheLineAndFlags := by
  intro i s t hi hn
  obtain ⟨t', hn', hd⟩ := exec_lineOperation_drives hi s
  obtain rfl : t' = t := Host.Outcome.next.inj (hn'.symm.trans hn)
  rw [hd]

/-- Settles O27: the counts and the duration are those of the symbols, START and END. -/
theorem frameCountsAndDurations : Obligations.FrameCountsAndDurations := by
  obtain ⟨hz, ho⟩ := countBits_scenario
  refine ⟨fun c house channel humidity temperature => ?_, fun n house channel humidity temperature => ?_, ?_, ?_, ?_⟩
  · exact ⟨countBits_frameOfFields _ _ _ _, countBits_true_even _ _ _ _, countBits_false_even _ _ _ _,
      frameWave_length c _ _ _ _, frameWave_duration c _ _ _ _⟩
  · rw [duration_transmitWave, frameOfCall, frameWave_duration_reference]
  · rw [frameOfCall_scenario, frameWave_length, hz, ho]
  · rw [frameOfCall_scenario, hz]
  · rw [frameOfCall_scenario, ho]

/-- Settles O28: the levels of a frame alternate, so only the LOW holds at its two ends meet a segment of their own level. -/
theorem mergedLowIntervalIsTwiceTrigger : Obligations.MergedLowIntervalIsTwiceTrigger := by
  intro c house channel humidity temperature idle w
  have halt : Alternates w := frameWave_alternates c _ _ _ _
  have hlast : w = w.dropLast ++ [⟨.low, c.tTrigger⟩] := frameWave_eq_dropLast_append c _ _ _ _
  have hfirst : w = ⟨.low, c.tTrigger⟩ :: w.tail := frameWave_eq_cons_tail c _
  have hself : merge w = w := merge_of_last_low halt hlast
  have hmerge : merge w = ⟨.low, c.tTrigger⟩ :: w.tail := hself.trans hfirst
  refine ⟨hself, ?_, merge_cons_of_eq hmerge rfl, merge_append_of_last_low halt hlast rfl, frameWave_take_two c _ _ _ _⟩
  rw [two_mul]
  exact merge_append_of_last_low halt hlast (merge_cons_of_eq hmerge rfl)

/-- Settles O48: after START's hold the sequencer stands at a safe position, with the rest of the waveform left. -/
theorem sequencerEmitsExactlyTransmit : Obligations.SequencerEmitsExactlyTransmit := by
  intro s hrep hne hs
  have h0 : s.rep ≠ 0 := hrep ▸ hne
  have hp : s.afterStart.PositionOk := ⟨hrep.le, fun e => absurd e h0, nofun, le_rfl⟩
  obtain ⟨t, ht, hline, hfin⟩ := State.segments_remaining s.afterStart.remaining (s.afterStart.issue ⟨.low, s.cfg.tTrigger⟩).elapse
    rfl hp (s.afterStart_flagsOk s.cfg.tTrigger)
  have hwave : transmitWave s.cfg s.cfg.repeats s.latchedFrame = ⟨.low, s.cfg.tTrigger⟩ :: s.afterStart.remaining := by
    rw [← hrep, ← State.remaining_start hs, State.remaining_afterStart hs h0]
  rw [hwave]
  refine ⟨t, ?_, ?_, hfin⟩
  · rw [List.length_cons, State.segments, State.nextSeg_start h0 hs]
    exact ht
  · rw [hline, State.elapse_line, State.issue_line, List.append_assoc]
    rfl

/-- Settles O49: START is one call of `NextSeg`, END one or two, a field step one or two for each of its bits. -/
theorem sequencerStepsAgreeWithOperations : Obligations.SequencerStepsAgreeWithOperations := by
  intro s hat
  have ⟨h0, hh, _⟩ := hat
  by_cases h1 : s.step = .start
  · refine ⟨s.startOp, by rw [h1]; rfl, ?_⟩
    rw [s.startOp_line, List.length_append, Nat.add_sub_cancel_left]
    exact State.segments_start h0 h1
  by_cases h2 : s.step = .endFrame
  · refine ⟨s.endOp, by rw [h2]; rfl, ?_⟩
    have hline : s.endOp.line = s.line ++ endSegs s.cfg s.pulseState := by rw [s.endOp_eq]
    rw [hline, List.length_append, Nat.add_sub_cancel_left]
    exact State.segments_end h0 h2 hh
  · refine ⟨s.emitStep s.step, exec_stepInstr_emitStep s h1 h2, ?_⟩
    rw [State.emitStep, s.emitBits_line_length]
    exact State.segments_fieldStep hat h1 h2

/-- Settles O13: each of R80's three assignments is an update of the state. -/
theorem startOpensAFrame : Obligations.StartOpensAFrame := fun _ => ⟨_, rfl, rfl⟩

/-- Settles O14: the segment and the inversion of R81 are updates of the state. -/
theorem zeroSymbolIsOneLongPulse : Obligations.ZeroSymbolIsOneLongPulse := fun _ => ⟨_, rfl, rfl⟩

/-- Settles O15: the two segments join the record one after the other. -/
theorem oneSymbolIsTwoShortPulses : Obligations.OneSymbolIsTwoShortPulses := fun s => by
  refine ⟨_, rfl, ?_⟩
  rw [← s.sym1_line]
  rfl

/-- Settles O17: EMIT_PRE sends 1, 1, 0, 0 from the flags START leaves. -/
theorem preambleAfterStartIsFixed : Obligations.PreambleAfterStartIsFixed := by
  intro s
  have heven : oddOnes [true, true, false, false] = false := by decide
  refine ⟨_, _, rfl, exec_fieldStep (st := .emitPre) (bits := [true, true, false, false]) s.startOp nofun nofun rfl, rfl, rfl, ?_⟩
  simp [emitted, heven]

/-- Settles O18: the symbol of the accumulator's own value clears it. -/
theorem parityStepSendsAndClearsAccumulator : Obligations.ParityStepSendsAndClearsAccumulator := by
  intro s
  refine ⟨_, congrArg Host.Outcome.next s.emitStep_emitPar, ?_⟩
  cases hp : s.parityBit with
  | true => exact ⟨rfl, congrArg Bool.not hp⟩
  | false => exact ⟨rfl, hp⟩

/-- Settles O19: END's segments by the level it begins at. -/
theorem endClosesAFrame : Obligations.EndClosesAFrame := by
  intro s
  refine ⟨_, congrArg Host.Outcome.next s.endOp_eq, fun hp => ?_, fun hp => ?_⟩
  · simp [endSegs, hp]
  · simp [endSegs, hp]

/-- Settles O20: a line operation ends with its last segment's time past, and so does each frame of REPEAT. -/
theorem wholeOperationsLeaveTheTimerSpent : Obligations.WholeOperationsLeaveTheTimerSpent := by
  constructor
  · intro i s hi
    obtain ⟨t, hn, hd⟩ := exec_lineOperation_drives hi s
    exact ⟨t, hn, hd ▸ rfl⟩
  · intro s
    refine ⟨_, rfl, ?_⟩
    cases hr : s.cfg.repeats with
    | zero => rfl
    | succ n =>
      rw [State.frames_succ]
      rfl

/-- Settles O41: each clause is an arm of `NextSeg` or of `Advance`. -/
theorem nextSegFollowsTheSequencerTable : Obligations.NextSegFollowsTheSequencerTable := fun s =>
  ⟨fun h => if_pos h,
    fun h hs => State.nextSeg_start h hs,
    fun h h1 h2 hh hb => (s.nextSeg_emit h h1 h2).trans (s.emitSeg_zero hh hb),
    fun h h1 h2 hh hb => (s.nextSeg_emit h h1 h2).trans (s.emitSeg_one hh hb),
    fun h h1 h2 hh => (s.nextSeg_emit h h1 h2).trans (s.emitSeg_second hh),
    fun h hs hh hp => State.nextSeg_endPulse h hs hh hp,
    fun h hs hh => State.nextSeg_endHold h hs hh,
    s.advance_inside,
    fun hi _ => by rw [s.advance_last hi, stepWidth_stepNext_emitPar]⟩

end Sys2Proof.Machine
end

section
/-! PROOFS. The control interface (spec/42_control_interface.md): the host's call, one edge in `IDLE` and in `RUN`, and the run of an
accepted TRANSMIT, cycle by cycle, to its completion. -/

namespace Sys2Proof.Machine

/-! ### The strobe and an edge (R113, R114) -/

/-- An edge with `start = 1` and `rst = 0` strobes TRANSMIT of the sampled ports (R42). -/
theorem decode_strobe_of_start {p : Ports} (hrst : p.rst = false) (hstart : p.start = true) :
    decode (.strobe p) = .ok (.transmit p.house p.channel p.humidity p.tempQ7) := by
  simp [decode, decodeStrobe, hrst, hstart]

theorem decode_strobe_of_no_start {p : Ports} (hrst : p.rst = false) (hstart : p.start = false) :
    decode (.strobe p) = .error .noStart := by
  simp [decode, decodeStrobe, hrst, hstart]

/-- An edge in `RUN` with `rst = 0` reads nothing more of the ports (R116). -/
theorem State.edge_run {s : State} {p : Ports} (hr : s.phase = .run) (hrst : p.rst = false) :
    s.edge p = if configLegal s.cfg then .next s.runEdge else .refused .illegalConfig := by
  cases hc : configLegal s.cfg <;> simp [State.edge, hc, hr, hrst]

section IdleEdge

variable {s : State} {p : Ports} (hc : configLegal s.cfg = true) (hi : s.phase = .idle) (hrst : p.rst = false)
include hc hi hrst

theorem State.edge_idle_strobe (hstart : p.start = true) :
    s.edge p = exec (.transmit p.house p.channel p.humidity p.tempQ7) { s with done := false } := by
  simp [State.edge, hc, hi, hrst, decode_strobe_of_start hrst hstart]

theorem State.edge_idle_quiet (hstart : p.start = false) : s.edge p = .next { s with done := false } := by
  simp [State.edge, hc, hi, hrst, decode_strobe_of_no_start hrst hstart]

end IdleEdge

/-! ### The running edge (R114, R115) -/

theorem State.runEdge_hold {s : State} (h : s.timer ≠ 0) : s.runEdge = { s with timer := s.timer - 1 } := if_neg h

theorem State.runEdge_of_seg {s t : State} {g : Segment} (h : s.timer = 0) (hn : s.nextSeg = .seg t g) :
    s.runEdge = t.issue g := by
  rw [State.runEdge, if_pos h, State.sequence, hn]

theorem State.runEdge_finish {s : State} (h : s.timer = 0) (h0 : s.rep = 0) :
    s.runEdge = { s with phase := .idle, done := true } := by
  have hn : s.nextSeg = .finish := if_pos h0
  rw [State.runEdge, if_pos h, State.sequence, hn]

@[simp] theorem State.runEdge_host (s : State) : s.runEdge.host = s.host := by
  rcases s.runEdge_cases with ⟨-, e⟩ | ⟨-, t, g, hn, e⟩ | ⟨-, -, -, e⟩ <;> rw [e]
  rw [s.nextSeg_frame t g hn]
  rfl

theorem State.runEdge_latchedFrame (s : State) : s.runEdge.latchedFrame = s.latchedFrame := by
  obtain ⟨hh, hch, hu, hq⟩ := s.runEdge_latches
  rw [State.latchedFrame, hh, hch, hu, hq, State.latchedFrame]

/-! ### The cycles ahead (R118) -/

/-- The levels of the line over the cycles of a transmission in progress, from the present one on: the rest of the segment in
progress, then the segments still to be issued. -/
def State.ahead (s : State) : List Level := List.replicate (s.timer + 1) s.tx ++ cycles s.cfg s.remaining

/-- The cycle after a transmission of the frame `f` (R115): idle with `done = 1`, the line LOW, the registers as R98 and R99 leave
them. -/
def State.Completed (u : State) (f : BitVec 36) : Prop :=
  u.busy = false ∧ u.done = true ∧ u.tx = .low ∧ u.rep = 0 ∧ u.step = .start ∧ u.bitidx = 0 ∧ u.half = false ∧ u.timer = 0 ∧
    u.pulseState = .high ∧ u.parityBit = false ∧ u.latchedFrame = f

/-- The present cycle is the first of the cycles ahead. -/
theorem State.ahead_eq_cons (s : State) :
    s.ahead = s.tx :: (List.replicate s.timer s.tx ++ cycles s.cfg s.remaining) := rfl

/-- In the first cycle of a segment the cycles ahead are those of the segment and of what follows it. -/
theorem State.ahead_issue (t : State) (g : Segment) (h : 1 ≤ g.dur * t.cfg.cyclesPerUs) :
    (t.issue g).ahead = cycles t.cfg (g :: t.remaining) := by
  rw [State.ahead, State.issue_timer, Nat.sub_add_cancel h]
  rfl

/-- Every segment lasts at least one cycle under a legal configuration (R5). -/
theorem State.nextSeg_cycles_pos {s t : State} {g : Segment} (hc : configLegal s.cfg = true) (h : s.nextSeg = .seg t g) :
    1 ≤ g.dur * s.cfg.cyclesPerUs := by
  obtain ⟨⟨⟨htrigger, hshort, hlong, hhalf⟩, hu⟩, -⟩ := (configLegal_iff _).mp hc
  have hd : 1 ≤ g.dur := by
    rcases s.nextSeg_segment t g h with e | e | e | e <;> rw [e] <;> assumption
  exact Nat.mul_pos hd hu

/-- `Finish` from a safe state with the last hold spent completes the transmission (R98, R115). -/
theorem State.completed_of_finish {s : State} (hp : s.PositionOk) (hf : s.FlagsOk) (hz : s.timer = 0) (h0 : s.rep = 0) :
    State.Completed { s with phase := .idle, done := true } s.latchedFrame := by
  obtain ⟨-, hfin, hhalf, hidx⟩ := hp
  have hs := hfin h0
  obtain ⟨htx, hpul, hpar⟩ := (State.flagsOk_start hs).mp hf
  have hi : s.bitidx = 0 := by simpa [hs, stepWidth] using hidx
  exact ⟨rfl, rfl, htx, h0, hs, hi, hhalf hs, hz, hpul, hpar, rfl⟩

/-- A running edge from a safe state uses up the present cycle; the edge after the last one takes `Finish`. -/
theorem State.Inv.runEdge_ahead {s : State} (h : s.Inv) (hr : s.phase = .run) :
    (s.runEdge.phase = .run ∧ s.ahead = s.tx :: s.runEdge.ahead) ∨
    (s.ahead = [s.tx] ∧ s.runEdge.Completed s.latchedFrame) := by
  have hp := h.position hr
  have hf := h.flags hr
  rcases s.runEdge_cases with ⟨hz, e⟩ | ⟨hz, t, g, hn, e⟩ | ⟨hz, h0, -, e⟩ <;> rw [e]
  · refine .inl ⟨hr, ?_⟩
    rw [s.ahead_eq_cons, State.ahead, Nat.sub_add_cancel (Nat.pos_of_ne_zero hz)]
    rfl
  · have hfr := s.nextSeg_frame t g hn
    have hcfg : t.cfg = s.cfg := by rw [hfr]
    have hph : t.phase = s.phase := by rw [hfr]
    obtain ⟨h0, hb⟩ := State.begins_of_nextSeg hn
    refine .inl ⟨hph.trans hr, ?_⟩
    rw [s.ahead_eq_cons, hz, hb.remaining h0 hp hf, State.ahead_issue t g (hcfg ▸ State.nextSeg_cycles_pos h.config hn), hcfg]
    rfl
  · refine .inr ⟨?_, State.completed_of_finish hp hf hz h0⟩
    rw [s.ahead_eq_cons, hz, State.remaining, if_pos h0]
    rfl

/-! ### The run of a transmission (R117, R118) -/

/-- A transmission in progress from a safe state, with no reset coming. -/
structure State.Sending (s : State) : Prop where
  inv : s.Inv
  run : s.phase = .run
  quiet : noReset s.host

theorem noReset.tail {ps : List Ports} (h : noReset ps) : noReset ps.tail := fun p hp => h p (List.mem_of_mem_tail hp)

/-- Past the end of the host's list every port is 0, `rst` too (entry 4). -/
theorem noReset.headD_rst {ps : List Ports} (h : noReset ps) : (ps.headD Ports.quiet).rst = false := by
  cases ps with
  | nil => rfl
  | cons p rest => exact h p List.mem_cons_self

/-- A step of a transmission in progress uses up the present cycle and goes on, or completes it. -/
theorem step_of_sending {s : State} (h : s.Sending) : ∃ t, step s = .next t ∧
    ((t.Sending ∧ t.latchedFrame = s.latchedFrame ∧ s.ahead = s.tx :: t.ahead) ∨
     (s.ahead = [s.tx] ∧ t.Completed s.latchedFrame)) := by
  obtain ⟨hinv, hr, hq⟩ := h
  have hinv' := hinv.withHost s.host.tail
  refine ⟨_, step_run s hinv.config hr hq.headD_rst, ?_⟩
  rcases hinv'.runEdge_ahead hr with ⟨hrun, hahead⟩ | hlast
  · refine .inl ⟨⟨hinv'.runEdge hr, hrun, ?_⟩, State.runEdge_latchedFrame _, hahead⟩
    rw [State.runEdge_host]
    exact hq.tail
  · exact .inr hlast

/-- Over the cycles ahead the block is busy and the line carries their levels; the cycle after them completes the transmission. -/
theorem State.Sending.run_ahead (w : List Level) {s : State} (h : s.Sending) (hw : s.ahead = w) :
    (∀ k, k < w.length → ∃ t, Host.Core.run Sys2Proof.core k s = .next t ∧ t.busy = true ∧ w[k]? = some t.tx) ∧
    ∃ u, Host.Core.run Sys2Proof.core w.length s = .next u ∧ u.Completed s.latchedFrame := by
  induction w generalizing s with
  | nil => exact absurd hw (List.cons_ne_nil _ _)
  | cons l w ih =>
    have hbusy : s.busy = true := decide_eq_true h.run
    have hl : s.tx = l := (List.cons.inj hw).1
    have hnow : ∃ t, Host.Core.run Sys2Proof.core 0 s = .next t ∧ t.busy = true ∧ (l :: w)[0]? = some t.tx :=
      ⟨s, rfl, hbusy, congrArg some hl.symm⟩
    obtain ⟨t, hstep, ⟨ht, hlat, hahead⟩ | ⟨hahead, hdone⟩⟩ := step_of_sending h
    · have hrest : t.ahead = w := (List.cons.inj (hahead.symm.trans hw)).2
      obtain ⟨hcycles, u, hu, hdone⟩ := ih ht hrest
      refine ⟨fun k hk => ?_, u, (run_succ _ s t hstep).trans hu, hlat ▸ hdone⟩
      cases k with
      | zero => exact hnow
      | succ k =>
        obtain ⟨v, hv, hbusy, htx⟩ := hcycles k (Nat.lt_of_succ_lt_succ hk)
        exact ⟨v, (run_succ _ s t hstep).trans hv, hbusy, htx⟩
    · have hnil : w = [] := (List.cons.inj (hw.symm.trans hahead)).2
      subst hnil
      refine ⟨fun k hk => ?_, t, run_succ _ s t hstep, hdone⟩
      rw [Nat.lt_one_iff.mp hk]
      exact hnow

/-! ### From the acceptance on (R113, R117) -/

section Accepted

variable (s : State) (h c u : BitVec 8) (q : BitVec 16) (hc : configLegal s.cfg = true)
include hc

theorem State.accept_sending (hm : s.micro = []) (hq : noReset s.host) : (s.accept h c u q).Sending := by
  refine ⟨s.accept_inv h c u q hc hm, of_decide_eq_true (s.accept_busy h c u q hc), ?_⟩
  rw [s.accept_eq h c u q (repeats_ne_zero_of_configLegal hc)]
  exact hq

/-- The cycles ahead of an acceptance are those of the whole waveform of its operands. -/
theorem State.accept_ahead :
    (s.accept h c u q).ahead = cycles s.cfg (transmitWave s.cfg s.cfg.repeats (frameOfPorts h c u q)) := by
  have hr := repeats_ne_zero_of_configLegal hc
  obtain ⟨⟨⟨htrigger, -⟩, hu⟩, -⟩ := (configLegal_iff _).mp hc
  have hwave := (State.remaining_start (s := s.loaded h c u q) rfl).symm.trans (State.remaining_afterStart rfl hr)
  rw [s.accept_eq_issue h c u q hr, State.ahead_issue]
  · exact congrArg (cycles s.cfg) hwave.symm
  · exact Nat.mul_pos htrigger hu

end Accepted

section Strobed

variable {s : State} {p : Ports} {rest : List Ports} (hc : configLegal s.cfg = true) (hi : s.phase = .idle) (hm : s.micro = [])
  (hhost : s.host = p :: rest) (hrst : p.rst = false) (hstart : p.start = true)
  (ha : admits s.cfg p.house p.channel p.humidity p.tempQ7 = true)
include hc hi hm hhost hrst hstart ha

/-- The step of an idle block with an admitted strobe at its ports is the acceptance. -/
theorem step_eq_accept :
    step s = .next (State.accept { s with done := false, host := rest } p.house p.channel p.humidity p.tempQ7) := by
  have hnow : s.portsNow = p := by rw [State.portsNow, hhost]; rfl
  rw [step_eq_edge s (.inr hm), hnow, hhost]
  exact (State.edge_idle_strobe (s := { s with host := rest }) hc hi hrst hstart).trans (execTransmit_of_admits hi hc ha)

/-- The run of an accepted TRANSMIT with no reset: busy with the levels of the waveform in each of its cycles, then complete. -/
theorem run_of_strobe (hq : noReset rest) (w : List Level)
    (hw : w = cycles s.cfg (transmitWave s.cfg s.cfg.repeats (frameOfPorts p.house p.channel p.humidity p.tempQ7))) :
    (∀ k, k < w.length → ∃ t, Host.Core.run Sys2Proof.core (k + 1) s = .next t ∧ t.busy = true ∧ w[k]? = some t.tx) ∧
    ∃ u, Host.Core.run Sys2Proof.core (w.length + 1) s = .next u ∧
      u.Completed (frameOfPorts p.house p.channel p.humidity p.tempQ7) := by
  have hsend := State.accept_sending { s with done := false, host := rest } p.house p.channel p.humidity p.tempQ7 hc hm hq
  have hahead := State.accept_ahead { s with done := false, host := rest } p.house p.channel p.humidity p.tempQ7 hc
  have hlat := State.accept_latchedFrame { s with done := false, host := rest } p.house p.channel p.humidity p.tempQ7 hc
  have hrun := hsend.run_ahead w (hahead.trans hw.symm)
  rw [hlat] at hrun
  simpa only [run_succ _ s _ (step_eq_accept hc hi hm hhost hrst hstart ha)] using hrun

end Strobed

/-- The duration of a frame rests on the four durations alone (R104). -/
theorem frameWave_duration_of_reference_times {c : Config} (h : BitVec 4) (ch : BitVec 2) (u : BitVec 7) (t : BitVec 15)
    (htrigger : c.tTrigger = 15000) (hshort : c.tShort = 1000) (hlong : c.tLong = 2000) (hhalf : c.tHalf = 500) :
    duration (frameWave c (frameOfFields h ch u t)) = 102500 := by
  rw [← frameWave_duration_reference h ch u t, frameWave_duration, frameWave_duration, htrigger, hshort, hlong, hhalf]
  rfl

/-! ### The obligations -/

/-- Settles O50: the cycles ahead of the acceptance are the cycles of the waveform, `CYCLES_PER_US` for each microsecond. -/
theorem transmissionCompletesOnTime : Obligations.TransmissionCompletesOnTime := by
  intro s p rest hc hi hm hhost hrst hstart ha hq f w n
  have hn : (cycles s.cfg w).length = n := (cycles_length s.cfg w).trans (Nat.mul_comm _ _)
  obtain ⟨hbusy, hdone⟩ := run_of_strobe hc hi hm hhost hrst hstart ha hq _ rfl
  rw [hn] at hbusy hdone
  refine ⟨fun k hk => ?_, hdone, fun htrigger hshort hlong hhalf => ?_⟩
  · obtain ⟨t, ht, hb, -⟩ := hbusy k hk
    exact ⟨t, ht, hb⟩
  · rw [duration_transmitWave]
    exact congrArg _ (frameWave_duration_of_reference_times _ _ _ _ htrigger hshort hlong hhalf)

/-- Settles O51: each step of the transmission uses up one of the cycles ahead. -/
theorem lineCarriesTheWaveformCycleByCycle : Obligations.LineCarriesTheWaveformCycleByCycle := by
  intro s p rest hc hi hm hhost hrst hstart ha hq
  exact (run_of_strobe hc hi hm hhost hrst hstart ha hq _ rfl).1

/-- Settles O12: the host's conversion reduces each operand modulo the number of values of its port. -/
theorem hostPresentsReducedOperands : Obligations.HostPresentsReducedOperands := fun house channel humidity _ =>
  ⟨rfl, fun temperature => ⟨portsOfCall house channel humidity temperature, rfl, rfl, rfl, toNat_ofInt_emod 8 house,
    toNat_ofInt_emod 8 channel, toNat_ofInt_emod 8 humidity, toNat_ofInt_emod 16 (quantise temperature)⟩⟩

/-- Settles O31: the acceptance written out, its latches the encoded operands. -/
theorem transmitIsAcceptedWhenIdle : Obligations.TransmitIsAcceptedWhenIdle := by
  intro house channel humidity tempQ7 s hi hc ha
  refine ⟨_, (execTransmit_of_admits hi hc ha).trans
    (congrArg Host.Outcome.next (s.accept_eq _ _ _ _ (repeats_ne_zero_of_configLegal hc))), ?_⟩
  exact ⟨houseField_eq_lowBits house, chanField_toNat channel, humField_eq_lowBits humidity, tempField_toNat tempQ7, rfl⟩

/-- Settles O36: the step is the edge with the ports the host drives, and an idle edge decodes the strobe. -/
theorem idleEdgeRunsTheStrobedTransmit : Obligations.IdleEdgeRunsTheStrobedTransmit := by
  intro s p hc hi hm hnow hrst
  have hstep : step s = State.edge { s with host := s.host.tail } p := hnow ▸ step_eq_edge s (.inr hm)
  exact ⟨fun hstart => ⟨decode_strobe_of_start hrst hstart, hstep.trans (State.edge_idle_strobe hc hi hrst hstart)⟩,
    fun hstart => hstep.trans (State.edge_idle_quiet hc hi hrst hstart)⟩

/-- Settles O37: with either ports the edge in `RUN` is the running edge, or the refusal of an illegal configuration. -/
theorem inputsAreIgnoredWhileBusy : Obligations.InputsAreIgnoredWhileBusy := by
  intro s p q rest hr hp hq
  have hedge : ∀ i : Ports, i.rst = false → step { s with host := i :: rest } =
      if configLegal s.cfg then .next (State.runEdge { s with host := rest }) else .refused .illegalConfig :=
    fun i hi => (step_eq_edge { s with host := i :: rest } (.inl hr)).trans (State.edge_run hr hi)
  rw [hedge p hp, hedge q hq]

/-- Settles O38: both are the running edge. -/
theorem transmitWhileBusyIsTheRunningEdge : Obligations.TransmitWhileBusyIsTheRunningEdge := by
  intro house channel humidity tempQ7 s hr hc
  have hexec : exec (.transmit house channel humidity tempQ7) s = .next s.runEdge := by simp [exec, execTransmit, hr]
  exact hexec.trans (step_run { s with host := Ports.quiet :: s.host } hc hr rfl).symm

/-- Settles O39: the running edge with a timer that is not 0. -/
theorem holdOnlyCountsDown : Obligations.HoldOnlyCountsDown := fun s hc hr hz hrst =>
  (step_run s hc hr hrst).trans (congrArg Host.Outcome.next (State.runEdge_hold hz))

/-- Settles O40: `NextSeg` does not see the host's list move on, and the running edge issues its segment. -/
theorem nextSegmentBeginsWhenTheTimerIsSpent : Obligations.NextSegmentBeginsWhenTheTimerIsSpent := by
  intro s u g hc hr hz hrst hn
  have hfr := s.nextSeg_frame u g hn
  have hcfg : u.cfg = s.cfg := by rw [hfr]
  have hedge := State.runEdge_of_seg (s := { s with host := s.host.tail }) hz (s.nextSeg_outer u g s.host.tail s.line hn)
  rw [step_run s hc hr hrst, hedge, State.issue, hcfg]

/-- Settles O42: the running edge with the timer spent and no frame left. -/
theorem finishGoesIdleWithDone : Obligations.FinishGoesIdleWithDone := fun s hc hr hz h0 hrst =>
  (step_run s hc hr hrst).trans (congrArg Host.Outcome.next (State.runEdge_finish hz h0))

end Sys2Proof.Machine
end

section
/-! PROOFS. Exceptions (spec/60_exceptions.md): where a configuration that breaks R5 is refused, where an operand is refused, and that
nothing else stops the clocked block. -/

namespace Sys2Proof.Machine

/-! ### A configuration that breaks R5 (R137) -/

/-- A duration or a `CYCLES_PER_US` of 0 breaks R5 for every run, clocked or not. -/
theorem timingLegal_eq_false_iff (c : Config) : timingLegal c = false ↔
    c.tTrigger = 0 ∨ c.tShort = 0 ∨ c.tLong = 0 ∨ c.tHalf = 0 ∨ c.cyclesPerUs = 0 := by
  rw [← Bool.not_eq_true, timingLegal, durationsLegal, Bool.and_eq_true, decide_eq_true_iff, decide_eq_true_iff]
  omega

theorem configLegal_eq_false_iff (c : Config) : configLegal c = false ↔
    c.tTrigger = 0 ∨ c.tShort = 0 ∨ c.tLong = 0 ∨ c.tHalf = 0 ∨ c.repeats = 0 ∨ c.cyclesPerUs = 0 := by
  rw [← Bool.not_eq_true, configLegal_iff]
  omega

theorem configLegal_eq_false_of_timing {c : Config} (h : timingLegal c = false) : configLegal c = false := by
  simp [configLegal, h]

theorem State.edge_of_illegalConfig {s : State} {p : Ports} (h : configLegal s.cfg = false) :
    s.edge p = .refused .illegalConfig := by
  simp [State.edge, h]

theorem State.direct_of_illegalTiming {s : State} {cw : CodeWord} (h : timingLegal s.cfg = false) :
    s.direct cw = .refused .illegalConfig := by
  simp [State.direct, h]

/-- A step where the timing breaks R5 is refused, be it a clock edge or an operation run directly. -/
theorem step_of_illegalTiming {s : State} (h : timingLegal s.cfg = false) : step s = .refused .illegalConfig := by
  rcases step_cases s with hstep | ⟨_, _, -, -, hstep⟩
  · exact hstep.trans (State.edge_of_illegalConfig (configLegal_eq_false_of_timing h))
  · exact hstep.trans (State.direct_of_illegalTiming h)

/-! ### Running the operation a word decodes to -/

theorem State.direct_of_decode {s : State} {cw : CodeWord} {i : Instr} (hc : timingLegal s.cfg = true)
    (h : decode cw = .ok i) : s.direct cw = exec i s := by
  simp [State.direct, hc, h]

theorem execTransmit_of_illegalConfig {h c u : BitVec 8} {q : BitVec 16} {s : State} (hi : s.phase = .idle)
    (hc : configLegal s.cfg = false) : execTransmit h c u q s = .refused .illegalConfig := by
  simp [execTransmit, hi, hc]

/-- A TRANSMIT word asks for the whole of R5, `REPEATS` too (entry 12). -/
theorem State.direct_strobe_of_illegalConfig {s : State} {p : Ports} (hi : s.phase = .idle) (hc : configLegal s.cfg = false)
    (hrst : p.rst = false) (hstart : p.start = true) : s.direct (.strobe p) = .refused .illegalConfig := by
  cases ht : timingLegal s.cfg with
  | false => exact State.direct_of_illegalTiming ht
  | true =>
    exact (State.direct_of_decode ht (decode_strobe_of_start hrst hstart)).trans (execTransmit_of_illegalConfig hi hc)

/-! ### The edge of a legal block -/

/-- With a legal configuration and the switch of U1 off the cycle rule has a next state in each of its cases: reset, `RUN`, and `IDLE`
with or without a strobe (R133, R137). -/
theorem State.exists_edge {s : State} {p : Ports} (hc : configLegal s.cfg = true) (hv : s.cfg.validate = false) :
    ∃ t, s.edge p = .next t := by
  cases hrst : p.rst with
  | true => exact ⟨s.resetEdge, by simp [State.edge, hc, hrst]⟩
  | false =>
    cases hp : s.phase with
    | run => exact ⟨s.runEdge, by rw [State.edge_run hp hrst, if_pos hc]⟩
    | idle =>
      cases hstart : p.start with
      | false => exact ⟨_, State.edge_idle_quiet hc hp hrst hstart⟩
      | true =>
        exact ⟨_, (State.edge_idle_strobe hc hp hrst hstart).trans
          (execTransmit_of_admits hp hc (admits_of_validate_off hv _ _ _ _))⟩

/-! ### The switch of U1 (R131) -/

theorem execTransmit_of_not_admits {h c u : BitVec 8} {q : BitVec 16} {s : State} (hi : s.phase = .idle)
    (hc : configLegal s.cfg = true) (ha : admits s.cfg h c u q = false) : execTransmit h c u q s = .refused .invalidField := by
  simp [execTransmit, hi, hc, ha]

/-- With the switch on, the operands admitted are those in range. -/
theorem admits_of_validate_on {cfg : Config} (hv : cfg.validate = true) (h c u : BitVec 8) (q : BitVec 16) :
    admits cfg h c u q = operandsInRange h c u q := by
  simp [admits, hv]

theorem operandsInRange_eq_false_iff (h c u : BitVec 8) (q : BitVec 16) : operandsInRange h c u q = false ↔
    h.toNat < 1 ∨ 15 < h.toNat ∨ c.toNat < 1 ∨ 4 < c.toNat ∨ 127 < u.toNat ∨ q.toInt < 0 ∨ 26240 < q.toInt := by
  rw [← Bool.not_eq_true, operandsInRange_iff]
  omega

/-- The switch as a change of the configuration alone. -/
def State.withoutValidation (s : State) : State := { s with cfg := { s.cfg with validate := false } }

/-- The acceptance does not read the switch. -/
theorem State.accept_withoutValidation (s : State) (h c u : BitVec 8) (q : BitVec 16) (hr : s.cfg.repeats ≠ 0) :
    s.withoutValidation.accept h c u q = (s.accept h c u q).withoutValidation := by
  rw [s.withoutValidation.accept_eq h c u q hr, s.accept_eq h c u q hr]
  rfl

/-! ### The obligations -/

/-- Settles O33: the switch admits exactly the operands in range, and the acceptance of those does not read it. -/
theorem validationRefusesOnlyOutOfRangeOperands : Obligations.ValidationRefusesOnlyOutOfRangeOperands := by
  intro h c u q s hi hc hv
  have hadmits := admits_of_validate_on hv h c u q
  refine ⟨fun hout => ?_, fun hh hh' hch hch' hu hq hq' => ?_⟩
  · exact execTransmit_of_not_admits hi hc (hadmits.trans ((operandsInRange_eq_false_iff h c u q).mpr hout))
  · have hin := (operandsInRange_iff h c u q).mpr ⟨⟨hh, hh'⟩, ⟨hch, hch'⟩, hu, hq, hq'⟩
    exact ⟨_, _, execTransmit_of_admits hi hc (hadmits.trans hin),
      execTransmit_of_admits (s := s.withoutValidation) hi hc (admits_of_validate_off rfl h c u q),
      s.accept_withoutValidation h c u q (repeats_ne_zero_of_configLegal hc)⟩

/-- Settles O34: a clock edge asks for the whole of R5, every step for its timing, a TRANSMIT word for the whole of it again. -/
theorem illegalConfigurationIsRefused : Obligations.IllegalConfigurationIsRefused := by
  intro s
  refine ⟨fun hclock hbad => ?_, fun hbad => ?_, fun p rest hi hm hrst hstart hrep => ?_⟩
  · exact (step_eq_edge s hclock).trans (State.edge_of_illegalConfig ((configLegal_eq_false_iff s.cfg).mpr hbad))
  · exact step_of_illegalTiming ((timingLegal_eq_false_iff s.cfg).mpr hbad)
  · have hc : configLegal s.cfg = false := by simp [configLegal, hrep]
    exact (step_eq_direct s _ rest hi hm).trans (State.direct_strobe_of_illegalConfig hi hc hrst hstart)

/-- Settles O35: on the clocked block a step is a clock edge, and the cycle rule answers it in each of its cases. -/
theorem cycleRuleIsTotal : Obligations.CycleRuleIsTotal := by
  intro s hc hv hclock
  rw [step_eq_edge s hclock]
  exact State.exists_edge hc hv

/-- Settles O58: an idle block with words pending runs the first of them directly, and that is the operation decoded. -/
theorem directStepRunsTheDecodedOperation : Obligations.DirectStepRunsTheDecodedOperation := fun s cw rest _ hi hm hc hd =>
  (step_eq_direct s cw rest hi hm).trans (State.direct_of_decode hc hd)

end Sys2Proof.Machine
end

section
/-! PROOFS. Reset (spec/70_reset_and_hazards.md): an edge with `rst = 1` is `ResetState`, whatever the block was doing. -/

namespace Sys2Proof.Machine

/-- `rst` is read before the phase (R133). -/
theorem State.edge_reset {s : State} {p : Ports} (hc : configLegal s.cfg = true) (hrst : p.rst = true) :
    s.edge p = .next s.resetEdge := by
  simp [State.edge, hc, hrst]

theorem State.portsNow_of_host {s : State} {p : Ports} {rest : List Ports} (hh : s.host = p :: rest) : s.portsNow = p := by
  simp [State.portsNow, hh]

/-- A clock edge that samples `rst = 1` resets the block, in RUN as in IDLE (R150). -/
theorem step_reset {s : State} (hc : configLegal s.cfg = true) (hclock : s.phase = .run ∨ s.micro = [])
    (hrst : s.portsNow.rst = true) : step s = .next (State.resetEdge { s with host := s.host.tail }) :=
  (step_eq_edge s hclock).trans (State.edge_reset hc hrst)

/-- Settles O30: the step is the reset edge, and the host's list moves on by the ports sampled. -/
theorem resetEdgeOverridesEverything : Obligations.ResetEdgeOverridesEverything := by
  intro s p rest hc hclock hh hrst
  have hnow : s.portsNow.rst = true := by rw [State.portsNow_of_host hh, hrst]
  have hrest : s.host.tail = rest := by rw [hh, List.tail_cons]
  rw [step_reset hc hclock hnow, hrest]
  rfl

end Sys2Proof.Machine
end

section
/-! PROOFS. A word of the opcode table placed where the next step finds it (spec/95_test_vectors.md P6): it is pending first, so it is
the one run directly, and the words pending before it stay. -/

namespace Sys2Proof.Machine

/-- Bits read as an instruction stand for a code word, and that word decodes to the instruction. -/
theorem decodeTableWord_eq_some_iff {nbits w : Nat} {i : Instr} :
    decodeTableWord nbits w = some i ↔ ∃ cw, tableWord nbits w = some cw ∧ decode cw = .ok i := by
  unfold decodeTableWord
  cases tableWord nbits w with
  | none => simp
  | some cw => cases hd : decode cw <;> simp [hd]

theorem State.withFetchWord_of_tableWord {s : State} {nbits w : Nat} {cw : CodeWord} (h : tableWord nbits w = some cw) :
    s.withFetchWord nbits w = s.place cw := by
  simp [State.withFetchWord, State.placeTableWord, h]

/-- The step of a placed word runs it on the idle block, the words pending before it untouched. -/
theorem step_place {s : State} {cw : CodeWord} {i : Instr} (hc : timingLegal s.cfg = true) (hd : decode cw = .ok i) :
    step (s.place cw) = exec i { s with phase := .idle } :=
  directStepRunsTheDecodedOperation (s.place cw) cw s.micro i rfl rfl hc hd

/-- Settles O59: the bits stand for a code word, and it is that word which is placed and run. -/
theorem placedTableWordRunsNext : Obligations.PlacedTableWordRunsNext := by
  intro s nbits w i hc hdec
  obtain ⟨cw, hword, hd⟩ := decodeTableWord_eq_some_iff.mp hdec
  rw [State.withFetchWord_of_tableWord hword]
  exact step_place hc hd

end Sys2Proof.Machine
end
